-- ==== Sys2Proof/Word.lean ====
section
/-! DEFINITION. The word types of the machine (00_scope.md R4, R6): bytes, 16-bit words, and the two
kinds of field that are plain numbers (a register index, a sprite height). -/

namespace Sys2Proof

/-- A memory byte or the content of a general register (10_state.md R20, R30). -/
abbrev Byte := BitVec 8

/-- A 16-bit value: `PC`, `I`, a stack entry, an instruction word (10_state.md R22, R24, R26). -/
abbrev Word := BitVec 16

/-- A 12-bit address field `nnn` (30_encoding.md R92). -/
abbrev Addr12 := BitVec 12

/-- The index of a general register, the value of a field `x` or `y` (30_encoding.md R92). -/
abbrev RegIdx := Fin 16

/-- A 4-bit count, the value of the field `n` of `DRW` (30_encoding.md R92, R93). -/
abbrev Nibble := Fin 16

/-- The index of the flag register `VF` (10_state.md R21). -/
abbrev vf : RegIdx := 15

end Sys2Proof
end

