-- ==== Sys2Proof/Syntax.lean ====
section
/-! DEFINITION. The instructions, one constructor per row of `spec/opcode_table.json`
(30_encoding.md R95), with the fields of R92 as operands. -/

namespace Sys2Proof

/-- The 35 instructions (30_encoding.md R95). A docstring gives the row's pattern and mnemonic. -/
inductive Instr where
  /-- `00E0` `CLS` (43_display.md R190) -/
  | cls
  /-- `00EE` `RET` (40_control_flow.md R121) -/
  | ret
  /-- `0nnn` `SYS nnn`, every word `0nnn` but `00E0` and `00EE` (40_control_flow.md R120) -/
  | sys (nnn : Addr12)
  /-- `1nnn` `JP nnn` (40_control_flow.md R122) -/
  | jp (nnn : Addr12)
  /-- `2nnn` `CALL nnn` (40_control_flow.md R123) -/
  | call (nnn : Addr12)
  /-- `3xkk` `SE Vx, kk` (40_control_flow.md R126) -/
  | seByte (x : RegIdx) (kk : Byte)
  /-- `4xkk` `SNE Vx, kk` (40_control_flow.md R127) -/
  | sneByte (x : RegIdx) (kk : Byte)
  /-- `5xy0` `SE Vx, Vy` (40_control_flow.md R128) -/
  | seReg (x y : RegIdx)
  /-- `6xkk` `LD Vx, kk` (41_alu.md R140) -/
  | ldByte (x : RegIdx) (kk : Byte)
  /-- `7xkk` `ADD Vx, kk` (41_alu.md R141) -/
  | addByte (x : RegIdx) (kk : Byte)
  /-- `8xy0` `LD Vx, Vy` (41_alu.md R142) -/
  | ldReg (x y : RegIdx)
  /-- `8xy1` `OR Vx, Vy` (41_alu.md R143) -/
  | orReg (x y : RegIdx)
  /-- `8xy2` `AND Vx, Vy` (41_alu.md R144) -/
  | andReg (x y : RegIdx)
  /-- `8xy3` `XOR Vx, Vy` (41_alu.md R145) -/
  | xorReg (x y : RegIdx)
  /-- `8xy4` `ADD Vx, Vy` (41_alu.md R146) -/
  | addReg (x y : RegIdx)
  /-- `8xy5` `SUB Vx, Vy` (41_alu.md R147) -/
  | subReg (x y : RegIdx)
  /-- `8xy6` `SHR Vx` (41_alu.md R148); the field `y` is decoded and ignored (log entry 7) -/
  | shr (x y : RegIdx)
  /-- `8xy7` `SUBN Vx, Vy` (41_alu.md R149) -/
  | subnReg (x y : RegIdx)
  /-- `8xyE` `SHL Vx` (41_alu.md R150); the field `y` is decoded and ignored (log entry 7) -/
  | shl (x y : RegIdx)
  /-- `9xy0` `SNE Vx, Vy` (40_control_flow.md R129) -/
  | sneReg (x y : RegIdx)
  /-- `Annn` `LD I, nnn` (42_index_memory.md R170) -/
  | ldI (nnn : Addr12)
  /-- `Bnnn` `JP V0, nnn` (40_control_flow.md R125) -/
  | jpV0 (nnn : Addr12)
  /-- `Cxkk` `RND Vx, kk` (41_alu.md R151) -/
  | rnd (x : RegIdx) (kk : Byte)
  /-- `Dxyn` `DRW Vx, Vy, n` (43_display.md R191) -/
  | drw (x y : RegIdx) (n : Nibble)
  /-- `Ex9E` `SKP Vx` (44_keypad_timers.md R200) -/
  | skp (x : RegIdx)
  /-- `ExA1` `SKNP Vx` (44_keypad_timers.md R201) -/
  | sknp (x : RegIdx)
  /-- `Fx07` `LD Vx, DT` (44_keypad_timers.md R203) -/
  | ldVxDt (x : RegIdx)
  /-- `Fx0A` `LD Vx, K` (44_keypad_timers.md R202) -/
  | ldVxK (x : RegIdx)
  /-- `Fx15` `LD DT, Vx` (44_keypad_timers.md R204) -/
  | ldDtVx (x : RegIdx)
  /-- `Fx18` `LD ST, Vx` (44_keypad_timers.md R205) -/
  | ldStVx (x : RegIdx)
  /-- `Fx1E` `ADD I, Vx` (42_index_memory.md R171) -/
  | addI (x : RegIdx)
  /-- `Fx29` `LD F, Vx` (42_index_memory.md R172) -/
  | ldF (x : RegIdx)
  /-- `Fx33` `LD B, Vx` (42_index_memory.md R173) -/
  | ldB (x : RegIdx)
  /-- `Fx55` `LD [I], Vx` (42_index_memory.md R175) -/
  | storeRegs (x : RegIdx)
  /-- `Fx65` `LD Vx, [I]` (42_index_memory.md R176) -/
  | loadRegs (x : RegIdx)
deriving DecidableEq, Repr

end Sys2Proof
end

