-- ==== Sys2Proof/WellFormed.lean ====
section
/-! DEFINITION. Which terms of `Instr` are instructions of the machine. The field types already bound
every register index, count and immediate (30_encoding.md R92); what is left is the precedence of
the two exact words of category 0 (R94, R99): `0x00E0` is `CLS` and `0x00EE` is `RET`, so neither is
a `SYS`. -/

namespace Sys2Proof

/-- The address field of `0x00E0`, the word of `CLS` (30_encoding.md R94). -/
def sysIsCls (nnn : Addr12) : Bool := nnn == 0x0E0#12

/-- The address field of `0x00EE`, the word of `RET` (30_encoding.md R94). -/
def sysIsRet (nnn : Addr12) : Bool := nnn == 0x0EE#12

/-- `SYS nnn` stands for the 4094 words `0nnn` other than `00E0` and `00EE` (30_encoding.md R99);
every other term is an instruction as it stands. -/
def Instr.wf : Instr → Bool
  | .sys nnn => !sysIsCls nnn && !sysIsRet nnn
  | .cls | .ret | .jp _ | .call _ | .seByte _ _ | .sneByte _ _ | .seReg _ _ | .ldByte _ _
  | .addByte _ _ | .ldReg _ _ | .orReg _ _ | .andReg _ _ | .xorReg _ _ | .addReg _ _
  | .subReg _ _ | .shr _ _ | .subnReg _ _ | .shl _ _ | .sneReg _ _ | .ldI _ | .jpV0 _
  | .rnd _ _ | .drw _ _ _ | .skp _ | .sknp _ | .ldVxDt _ | .ldVxK _ | .ldDtVx _ | .ldStVx _
  | .addI _ | .ldF _ | .ldB _ | .storeRegs _ | .loadRegs _ => true

end Sys2Proof
end

