-- ==== Sys2Proof/Decode.lean ====
section
/-! DEFINITION. The decoder (30_encoding.md R92, R94), total on any bytes and rejecting by name the
unknown words of R98; then the encoder, written from the formats of R91 and the map of R95. -/

namespace Sys2Proof

/-! ### Fields (30_encoding.md R92) -/

/-- The category nibble `op[15:12]`. -/
def fieldCategory (op : Word) : Fin 16 := (op.extractLsb' 12 4).toFin

/-- The field `x = op[11:8]`. -/
def fieldX (op : Word) : RegIdx := (op.extractLsb' 8 4).toFin

/-- The field `y = op[7:4]`. -/
def fieldY (op : Word) : RegIdx := (op.extractLsb' 4 4).toFin

/-- The field `n = op[3:0]`. -/
def fieldN (op : Word) : Nibble := (op.extractLsb' 0 4).toFin

/-- The field `kk = op[7:0]`. -/
def fieldKk (op : Word) : Byte := op.extractLsb' 0 8

/-- The field `nnn = op[11:0]`. -/
def fieldNnn (op : Word) : Addr12 := op.extractLsb' 0 12

/-- The 16-bit word of two bytes, the first being bits 15:8 (20_memory.md R62). -/
def wordOfBytes (hi lo : Byte) : Word := hi ++ lo

/-- Bits 15:8 of a word, the byte at the lower address (20_memory.md R62). -/
def highByte (op : Word) : Byte := op.extractLsb' 8 8

/-- Bits 7:0 of a word, the byte at the higher address (20_memory.md R62). -/
def lowByte (op : Word) : Byte := op.extractLsb' 0 8

/-! ### The decoder -/

/-- Why bytes are no instruction: too few of them, or one of the five patterns of unknown words
(30_encoding.md R98). Executing an unknown word is no fault: see `Machine.unknownOpcode`. -/
inductive Reject where
  /-- fewer than the two bytes of an instruction (30_encoding.md R90); no fetch gives this -/
  | truncated
  /-- `5xyN` with `N != 0` -/
  | unknown5xyN
  /-- `8xyN` with `N` in 8..0xD or 0xF -/
  | unknown8xyN
  /-- `9xyN` with `N != 0` -/
  | unknown9xyN
  /-- `Exkk` with `kk` neither 0x9E nor 0xA1 -/
  | unknownExkk
  /-- `Fxkk` with `kk` none of the nine function bytes of category F -/
  | unknownFxkk
deriving DecidableEq, Repr

/-- Category 8, by its function nibble (30_encoding.md R94). -/
def decode8 (op : Word) : Except Reject Instr :=
  let x := fieldX op
  let y := fieldY op
  match (fieldN op).val with
  | 0x0 => .ok (.ldReg x y)
  | 0x1 => .ok (.orReg x y)
  | 0x2 => .ok (.andReg x y)
  | 0x3 => .ok (.xorReg x y)
  | 0x4 => .ok (.addReg x y)
  | 0x5 => .ok (.subReg x y)
  | 0x6 => .ok (.shr x y)
  | 0x7 => .ok (.subnReg x y)
  | 0xE => .ok (.shl x y)
  | _ => .error .unknown8xyN

/-- Category E, by its function byte (30_encoding.md R94). -/
def decodeE (op : Word) : Except Reject Instr :=
  let x := fieldX op
  match (fieldKk op).toNat with
  | 0x9E => .ok (.skp x)
  | 0xA1 => .ok (.sknp x)
  | _ => .error .unknownExkk

/-- Category F, by its function byte (30_encoding.md R94). -/
def decodeF (op : Word) : Except Reject Instr :=
  let x := fieldX op
  match (fieldKk op).toNat with
  | 0x07 => .ok (.ldVxDt x)
  | 0x0A => .ok (.ldVxK x)
  | 0x15 => .ok (.ldDtVx x)
  | 0x18 => .ok (.ldStVx x)
  | 0x1E => .ok (.addI x)
  | 0x29 => .ok (.ldF x)
  | 0x33 => .ok (.ldB x)
  | 0x55 => .ok (.storeRegs x)
  | 0x65 => .ok (.loadRegs x)
  | _ => .error .unknownFxkk

/-- `decode(op)` of 30_encoding.md R94: first the category nibble, then the function bits. The last
case is category 0xF. -/
def decodeWord (op : Word) : Except Reject Instr :=
  let x := fieldX op
  let y := fieldY op
  let n := fieldN op
  let kk := fieldKk op
  let nnn := fieldNnn op
  match (fieldCategory op).val with
  | 0x0 =>
    if op = 0x00E0#16 then .ok .cls
    else if op = 0x00EE#16 then .ok .ret
    else .ok (.sys nnn)
  | 0x1 => .ok (.jp nnn)
  | 0x2 => .ok (.call nnn)
  | 0x3 => .ok (.seByte x kk)
  | 0x4 => .ok (.sneByte x kk)
  | 0x5 => if n = 0 then .ok (.seReg x y) else .error .unknown5xyN
  | 0x6 => .ok (.ldByte x kk)
  | 0x7 => .ok (.addByte x kk)
  | 0x8 => decode8 op
  | 0x9 => if n = 0 then .ok (.sneReg x y) else .error .unknown9xyN
  | 0xA => .ok (.ldI nnn)
  | 0xB => .ok (.jpV0 nnn)
  | 0xC => .ok (.rnd x kk)
  | 0xD => .ok (.drw x y n)
  | 0xE => decodeE op
  | _ => decodeF op

/-- Decoding of bytes in memory order: the first instruction and the bytes after it. -/
def decode : List Byte → Except Reject (Instr × List Byte)
  | hi :: lo :: rest =>
    match decodeWord (wordOfBytes hi lo) with
    | .ok i => .ok (i, rest)
    | .error e => .error e
  | [_] => .error .truncated
  | [] => .error .truncated

/-- The instruction word of a table word of `nbits` bits: every bit above `nbits` is 0. -/
def tableWord (nbits w : Nat) : Word := BitVec.ofNat 16 (w % 2 ^ nbits)

/-- The instruction the decoder reads from the word `w` of `spec/opcode_table.json`, laid out in
memory order, big-endian (20_memory.md R62). -/
def decodeTableWord (nbits w : Nat) : Option Instr :=
  let op := tableWord nbits w
  match decode [highByte op, lowByte op] with
  | .ok (i, _) => some i
  | .error _ => none

/-! ### The encoder (30_encoding.md R91, R95) -/

/-- A register index or nibble as the four bits of its field. -/
def nibbleBits (k : Fin 16) : BitVec 4 := BitVec.ofFin k

/-- Format `A`: category and `nnn`. -/
def encodeA (category : BitVec 4) (nnn : Addr12) : Word := category ++ nnn

/-- Formats `XK` and `XF`: category, `x` and a byte (`kk`, or the function byte). -/
def encodeXK (category : BitVec 4) (x : RegIdx) (kk : Byte) : Word :=
  category ++ nibbleBits x ++ kk

/-- Formats `XY` and `XYN`: category, `x`, `y` and a nibble (the function, or `n`). -/
def encodeXYN (category : BitVec 4) (x y : RegIdx) (n : BitVec 4) : Word :=
  category ++ nibbleBits x ++ nibbleBits y ++ n

/-- The word of a well-formed instruction (30_encoding.md R95). -/
def encode : Instr → Word
  | .cls => 0x00E0#16
  | .ret => 0x00EE#16
  | .sys nnn => encodeA 0x0#4 nnn
  | .jp nnn => encodeA 0x1#4 nnn
  | .call nnn => encodeA 0x2#4 nnn
  | .seByte x kk => encodeXK 0x3#4 x kk
  | .sneByte x kk => encodeXK 0x4#4 x kk
  | .seReg x y => encodeXYN 0x5#4 x y 0x0#4
  | .ldByte x kk => encodeXK 0x6#4 x kk
  | .addByte x kk => encodeXK 0x7#4 x kk
  | .ldReg x y => encodeXYN 0x8#4 x y 0x0#4
  | .orReg x y => encodeXYN 0x8#4 x y 0x1#4
  | .andReg x y => encodeXYN 0x8#4 x y 0x2#4
  | .xorReg x y => encodeXYN 0x8#4 x y 0x3#4
  | .addReg x y => encodeXYN 0x8#4 x y 0x4#4
  | .subReg x y => encodeXYN 0x8#4 x y 0x5#4
  | .shr x y => encodeXYN 0x8#4 x y 0x6#4
  | .subnReg x y => encodeXYN 0x8#4 x y 0x7#4
  | .shl x y => encodeXYN 0x8#4 x y 0xE#4
  | .sneReg x y => encodeXYN 0x9#4 x y 0x0#4
  | .ldI nnn => encodeA 0xA#4 nnn
  | .jpV0 nnn => encodeA 0xB#4 nnn
  | .rnd x kk => encodeXK 0xC#4 x kk
  | .drw x y n => encodeXYN 0xD#4 x y (nibbleBits n)
  | .skp x => encodeXK 0xE#4 x 0x9E#8
  | .sknp x => encodeXK 0xE#4 x 0xA1#8
  | .ldVxDt x => encodeXK 0xF#4 x 0x07#8
  | .ldVxK x => encodeXK 0xF#4 x 0x0A#8
  | .ldDtVx x => encodeXK 0xF#4 x 0x15#8
  | .ldStVx x => encodeXK 0xF#4 x 0x18#8
  | .addI x => encodeXK 0xF#4 x 0x1E#8
  | .ldF x => encodeXK 0xF#4 x 0x29#8
  | .ldB x => encodeXK 0xF#4 x 0x33#8
  | .storeRegs x => encodeXK 0xF#4 x 0x55#8
  | .loadRegs x => encodeXK 0xF#4 x 0x65#8

/-! ### The opcode map as masks (30_encoding.md R95) -/

/-- The `mask` of the instruction's row. -/
def rowMask : Instr → Word
  | .cls | .ret => 0xFFFF#16
  | .sys _ | .jp _ | .call _ | .seByte _ _ | .sneByte _ _ | .ldByte _ _ | .addByte _ _
  | .ldI _ | .jpV0 _ | .rnd _ _ | .drw _ _ _ => 0xF000#16
  | .seReg _ _ | .ldReg _ _ | .orReg _ _ | .andReg _ _ | .xorReg _ _ | .addReg _ _
  | .subReg _ _ | .shr _ _ | .subnReg _ _ | .shl _ _ | .sneReg _ _ => 0xF00F#16
  | .skp _ | .sknp _ | .ldVxDt _ | .ldVxK _ | .ldDtVx _ | .ldStVx _ | .addI _ | .ldF _
  | .ldB _ | .storeRegs _ | .loadRegs _ => 0xF0FF#16

/-- The `match` of the instruction's row. -/
def rowMatch : Instr → Word
  | .cls => 0x00E0#16
  | .ret => 0x00EE#16
  | .sys _ => 0x0000#16
  | .jp _ => 0x1000#16
  | .call _ => 0x2000#16
  | .seByte _ _ => 0x3000#16
  | .sneByte _ _ => 0x4000#16
  | .seReg _ _ => 0x5000#16
  | .ldByte _ _ => 0x6000#16
  | .addByte _ _ => 0x7000#16
  | .ldReg _ _ => 0x8000#16
  | .orReg _ _ => 0x8001#16
  | .andReg _ _ => 0x8002#16
  | .xorReg _ _ => 0x8003#16
  | .addReg _ _ => 0x8004#16
  | .subReg _ _ => 0x8005#16
  | .shr _ _ => 0x8006#16
  | .subnReg _ _ => 0x8007#16
  | .shl _ _ => 0x800E#16
  | .sneReg _ _ => 0x9000#16
  | .ldI _ => 0xA000#16
  | .jpV0 _ => 0xB000#16
  | .rnd _ _ => 0xC000#16
  | .drw _ _ _ => 0xD000#16
  | .skp _ => 0xE09E#16
  | .sknp _ => 0xE0A1#16
  | .ldVxDt _ => 0xF007#16
  | .ldVxK _ => 0xF00A#16
  | .ldDtVx _ => 0xF015#16
  | .ldStVx _ => 0xF018#16
  | .addI _ => 0xF01E#16
  | .ldF _ => 0xF029#16
  | .ldB _ => 0xF033#16
  | .storeRegs _ => 0xF055#16
  | .loadRegs _ => 0xF065#16

end Sys2Proof
end

