-- ==== Sys2Proof/Config.lean ====
section
/-! DEFINITION. What is fixed for the machine (00_scope.md R4), and its open parameters (R5): the type
and the default of `FONT`, which the host's operations take as an argument, and the free value that
stands for the random byte (10_state.md R36). The third, the host's schedule, is the argument of
`Machine.runOps`. -/

namespace Sys2Proof.Config

/-- `MEM_SIZE` (00_scope.md R4): valid addresses are 0x000 to 0xFFF. -/
def memSize : Nat := 4096

/-- `PROG_BASE` (00_scope.md R4): where `load` puts the image, and the reset value of `PC`. -/
def progBase : Nat := 0x200

/-- `FONT_SIZE` (00_scope.md R4). -/
abbrev fontSize : Nat := 80

/-- The parameter `FONT[0..79]`: any 80 bytes, 16 glyphs of 5 bytes, the glyph of digit `d` at `5*d`
(00_scope.md R5, 10_state.md R37). -/
abbrev FontTable := Vector Byte fontSize

/-- The default of `FONT[0..79]`, glyphs 0 to 7 (10_state.md R37). -/
def fontLow : List Byte :=
  [0xF0, 0x90, 0x90, 0x90, 0xF0,  0x20, 0x60, 0x20, 0x20, 0x70,
   0xF0, 0x10, 0xF0, 0x80, 0xF0,  0xF0, 0x10, 0xF0, 0x10, 0xF0,
   0x90, 0x90, 0xF0, 0x10, 0x10,  0xF0, 0x80, 0xF0, 0x10, 0xF0,
   0xF0, 0x80, 0xF0, 0x90, 0xF0,  0xF0, 0x10, 0x20, 0x40, 0x40]

/-- The default of `FONT[0..79]`, glyphs 8 to F (10_state.md R37). -/
def fontHigh : List Byte :=
  [0xF0, 0x90, 0xF0, 0x90, 0xF0,  0xF0, 0x90, 0xF0, 0x10, 0xF0,
   0xF0, 0x90, 0xF0, 0x90, 0x90,  0xE0, 0x90, 0xE0, 0x90, 0xE0,
   0xF0, 0x80, 0x80, 0x80, 0xF0,  0xE0, 0x90, 0x90, 0x90, 0xE0,
   0xF0, 0x80, 0xF0, 0x80, 0xF0,  0xF0, 0x80, 0xF0, 0x80, 0x80]

/-- The default of `FONT` (10_state.md R37), which `State.reset` has (log entry 3). -/
def defaultFont : FontTable := ⟨(fontLow ++ fontHigh).toArray, rfl⟩

/-- The free value `Rand()` (10_state.md R36, 41_alu.md R151; log entry 2): the byte that the `k`-th
execution of `RND` draws. It has no body, so nothing can be proved of a byte it answers. -/
opaque randByte : Nat → Byte

end Sys2Proof.Config
end

