-- ==== Sys2Proof/Machine/State.lean ====
section
/-! DEFINITION. The state of the machine as plain data (10_state.md R20 to R33), its value right after
reset (R38), and the reasons a step or a host operation of the MODEL can stop. The spec's own faults
are no such reason: `raise Fault(c)` has an effect the spec describes, so it is a next state whose
`fault` field holds the code (60_exceptions.md R255). -/

namespace Sys2Proof.Machine

/-- `MODE` (10_state.md R31): `RUN` (0) or `WAITKEY` (1). -/
inductive Mode where
  | run
  | waitKey
deriving DecidableEq, Repr

/-- The codes of the register `FAULT` (60_exceptions.md R251). Codes 5 to 7 are never produced and have
no constructor (log entry 5). -/
inductive FaultCode where
  /-- code 0: the core is not halted -/
  | noFault
  /-- code 1: `CALL` with `SP = 16` -/
  | stackOverflow
  /-- code 2: `RET` with `SP = 0` -/
  | stackUnderflow
  /-- code 3: a fetch with `PC > 0xFFE` -/
  | fetchOutOfRange
  /-- code 4: a data access whose highest address is above 0xFFF -/
  | dataOutOfRange
deriving DecidableEq, Repr

/-- Why a step of the model stops. No run of the machine reaches one of these. -/
inductive Fault where
  /-- Raised by `CALL` and `RET` when `SP` is 17 to 255. `STACK` has 16 entries, the spec says these
  values are never produced (10_state.md R25, R34) and gives no effect for them. Safe: the model
  stops where the spec says nothing (log entry 4). -/
  | stackPointerOutOfRange
deriving DecidableEq, Repr

/-- Why the model refuses to give a step. -/
inductive Refusal where
  /-- An instruction without a meaning, rejected by name in `exec`. No arm raises it. Safe. -/
  | notModelled (mnemonic : String)
  /-- Raised by the host operation `set_key` with an index above 15, which is outside the interface: a
  model gives it no step (50_host_and_cycle.md R226). Safe. -/
  | keyIndexOutOfRange (index : Nat)
deriving DecidableEq, Repr

/-- `MEM` (10_state.md R30): the bytes that differ from what an unlisted address reads as, by strictly
rising address; see `Memory.wf` and `Memory.unlisted` in `Ops.lean`. -/
abbrev Memory := List Host.Cell

/-- The framebuffer, one row of 64 one-bit pixels after another (10_state.md R29): bit `c` of row `r`
is `FB[r][c]`. -/
abbrev FrameBuffer := Vector (BitVec 64) 32

/-- All the state of the machine (10_state.md R39). -/
structure State where
  /-- `V[0]` to `V[15]` (10_state.md R20); `VF` is `V[15]` (R21) -/
  v : Vector Byte 16
  /-- `I` (10_state.md R24) -/
  i : Word
  /-- `PC` (10_state.md R22) -/
  pc : Word
  /-- `SP`, the number of return addresses on the stack (10_state.md R25) -/
  sp : Byte
  /-- `STACK[0]` to `STACK[15]` (10_state.md R26) -/
  stack : Vector Word 16
  /-- `DT` (10_state.md R27) -/
  dt : Byte
  /-- `ST` (10_state.md R27) -/
  st : Byte
  /-- `KEY[0]` to `KEY[15]`, true = pressed (10_state.md R28) -/
  key : Vector Bool 16
  /-- `FB` (10_state.md R29) -/
  fb : FrameBuffer
  /-- `MEM` (10_state.md R30) -/
  mem : Memory
  /-- `MODE` (10_state.md R31) -/
  mode : Mode
  /-- `FAULT` (10_state.md R32) -/
  fault : FaultCode
  /-- `UNK` (10_state.md R33) -/
  unk : Bool
  /-- The model's own counter of random bytes drawn, which selects the next free value of `Rand()`
  (10_state.md R36; log entry 2) -/
  draws : Nat
deriving DecidableEq, Repr

/-- The state after `new` with the default `FONT` (10_state.md R38, 70_reset_and_hazards.md R280); with
any other see `initialState` in `HostOps.lean`. `mem` lists nothing: every byte reads as the reset
content. `draws` is the model's own (DESIGN CHOICE 0, log entry 2). -/
def State.reset : State where
  v := Vector.replicate 16 0
  i := 0
  pc := BitVec.ofNat 16 Config.progBase
  sp := 0
  stack := Vector.replicate 16 0
  dt := 0
  st := 0
  key := Vector.replicate 16 false
  fb := Vector.replicate 32 0
  mem := []
  mode := .run
  fault := .noFault
  unk := false
  draws := 0

end Sys2Proof.Machine
end

