-- ==== Sys2Proof/Machine/Ops.lean ====
section
/-! DEFINITION. The named operations over registers, memory, stack, framebuffer, keys and the random
source that the meanings are written in (00_scope.md R7), and the raising of a fault. -/

namespace Sys2Proof.Machine

/-! ### Setters, one per register -/

/-- `PC <- a`. -/
def setPc (s : State) (a : Word) : State := { s with pc := a }

/-- `I <- a`. -/
def setI (s : State) (a : Word) : State := { s with i := a }

/-- `SP <- b`. -/
def setSp (s : State) (b : Byte) : State := { s with sp := b }

/-- `DT <- b`. -/
def setDt (s : State) (b : Byte) : State := { s with dt := b }

/-- `ST <- b`. -/
def setSt (s : State) (b : Byte) : State := { s with st := b }

/-- `MODE <- m`. -/
def setMode (s : State) (m : Mode) : State := { s with mode := m }

/-- `FAULT <- c`. -/
def setFault (s : State) (c : FaultCode) : State := { s with fault := c }

/-- `UNK <- b`. -/
def setUnk (s : State) (b : Bool) : State := { s with unk := b }

/-- All of `FB` at once. -/
def setFb (s : State) (fb : FrameBuffer) : State := { s with fb := fb }

/-- All of `MEM` at once. -/
def setMem (s : State) (m : Memory) : State := { s with mem := m }

/-- All general registers at once. -/
def setRegs (s : State) (v : Vector Byte 16) : State := { s with v := v }

/-- All of `STACK` at once. -/
def setStack (s : State) (stack : Vector Word 16) : State := { s with stack := stack }

/-- All of `KEY` at once. -/
def setKeys (s : State) (key : Vector Bool 16) : State := { s with key := key }

/-- The counter of random bytes drawn. -/
def setDraws (s : State) (k : Nat) : State := { s with draws := k }

/-! ### General registers (10_state.md R20, R21) -/

/-- `V[x]`. -/
def readV (s : State) (x : RegIdx) : Byte := s.v[x.val]

/-- `V[x] <- b`. No register is hardwired (10_state.md R20). -/
def writeV (s : State) (x : RegIdx) (b : Byte) : State := setRegs s (s.v.set x.val b)

/-- `VF <- b ? 1 : 0`, the write of the flag (10_state.md R21). -/
def writeFlag (s : State) (b : Bool) : State := writeV s vf (if b then 1 else 0)

/-! ### The program counter (10_state.md R22, 40_control_flow.md R124) -/

/-- `npc`, the post-fetch PC: `(PC + 2) mod 65536`. -/
def npc (s : State) : Word := s.pc + 2

/-- `PC <- npc`. -/
def advance (s : State) : State := setPc s (npc s)

/-- A skip: `PC <- (npc + 2) mod 65536` when the condition holds, else `PC <- npc`
(40_control_flow.md R124). -/
def skipIf (cond : Bool) (s : State) : State := if cond then setPc s (npc s + 2) else advance s

/-! ### Raising a fault (60_exceptions.md R255) -/

/-- `raise Fault(c)`: the tick ends with `FAULT <- c` and no other change. There is no return from it
(60_exceptions.md R257). -/
def raise (c : FaultCode) (s : State) : Host.Outcome State Fault Refusal := .next (setFault s c)

/-- The core is halted: `FAULT != 0` (60_exceptions.md R256). -/
def halted (s : State) : Bool := s.fault != .noFault

/-- The number of a fault code (60_exceptions.md R251). -/
def FaultCode.number : FaultCode → BitVec 3
  | .noFault => 0
  | .stackOverflow => 1
  | .stackUnderflow => 2
  | .fetchOutOfRange => 3
  | .dataOutOfRange => 4

/-- The number of a mode (10_state.md R31). -/
def Mode.number : Mode → BitVec 1
  | .run => 0
  | .waitKey => 1

/-! ### Memory (20_memory.md R60 to R68) -/

/-- What an unlisted address reads as: the content of memory in `State.reset`, the default `FONT` at
0x000..0x04F and 0 everywhere else (10_state.md R38). With another `FONT` the bytes that differ are
listed (log entry 10). -/
def Memory.unlisted (a : Nat) : Byte := (Config.defaultFont[a]?).getD 0

/-- `MemRead(a, 1)`. -/
def Memory.read : Memory → Nat → Byte
  | [], a => Memory.unlisted a
  | (k, b) :: rest, a => if a = k then b else Memory.read rest a

/-- The memory with the address no longer listed. -/
def Memory.erase (m : Memory) (a : Nat) : Memory := m.filter fun c => c.1 != a

/-- Lists a cell in front of the first cell with a higher address. -/
def Memory.insert : Memory → Nat → Byte → Memory
  | [], a, b => [(a, b)]
  | (k, c) :: rest, a, b =>
    if a < k then (a, b) :: (k, c) :: rest else (k, c) :: Memory.insert rest a b

/-- `MemWrite(a, 1, b)`, keeping the canonical form: a byte that the address reads as unlisted is not
listed. -/
def Memory.write (m : Memory) (a : Nat) (b : Byte) : Memory :=
  if b = Memory.unlisted a then Memory.erase m a else Memory.insert (Memory.erase m a) a b

/-- The canonical form: addresses below 4096 and strictly rising, and no byte listed that the address
reads as unlisted. -/
def Memory.wf : Memory → Bool
  | [] => true
  | (k, b) :: rest =>
    decide (k < Config.memSize) && b != Memory.unlisted k &&
      rest.all (fun c => decide (k < c.1)) && Memory.wf rest

/-- The byte at address `a` of the machine's memory. -/
def readMem (s : State) (a : Nat) : Byte := Memory.read s.mem a

/-- Bytes written at `a`, `a + 1`, ... in this order (20_memory.md R64). -/
def Memory.writeBytes (m : Memory) (a : Nat) : List Byte → Memory
  | [] => m
  | b :: bs => Memory.writeBytes (Memory.write m a b) (a + 1) bs

/-- Bytes written to the machine's memory at `a`, `a + 1`, ... -/
def writeBytes (s : State) (a : Nat) (bs : List Byte) : State :=
  setMem s (Memory.writeBytes s.mem a bs)

/-! ### Fetch (20_memory.md R62, R66; 50_host_and_cycle.md R231) -/

/-- Both bytes of the instruction are inside memory: `PC <= 0xFFE`. -/
def fetchable (s : State) : Bool := decide (s.pc.toNat + 1 < Config.memSize)

/-- `MemRead(PC, 1) ++ MemRead(PC + 1, 1)`, big-endian. -/
def fetchWord (s : State) : Word :=
  wordOfBytes (readMem s s.pc.toNat) (readMem s (s.pc.toNat + 1))

/-- An unknown word: `PC <- npc; UNK <- 1` (50_host_and_cycle.md R233). -/
def unknownOpcode (s : State) : State := setUnk (advance s) true

/-! ### The return stack (10_state.md R25, R26) -/

/-- `STACK[j]`, where there is such an entry. -/
def stackEntry (s : State) (j : Nat) : Option Word := s.stack[j]?

/-- `STACK[SP] <- a; SP <- SP + 1`, where there is an entry `SP`. -/
def pushReturn (s : State) (a : Word) : Option State :=
  if h : s.sp.toNat < 16 then some (setSp (setStack s (s.stack.set s.sp.toNat a h)) (s.sp + 1))
  else none

/-- The top entry `STACK[SP - 1]` and the state with `SP <- SP - 1`, where there is such an entry. The
popped entry keeps its value (10_state.md R26). -/
def popReturn (s : State) : Option (Word × State) :=
  match stackEntry s (s.sp.toNat - 1) with
  | some a => some (a, setSp s (s.sp - 1))
  | none => none

/-! ### The framebuffer (10_state.md R29) -/

/-- A pixel's place: row and column. -/
abbrev Cell := Fin 32 × Fin 64

/-- `FB[r][c]`. -/
def FrameBuffer.pixel (fb : FrameBuffer) (p : Cell) : Bool := fb[p.1.val].getLsbD p.2.val

/-- `FB[r][c] <- FB[r][c] ^ 1`. -/
def FrameBuffer.invert (fb : FrameBuffer) (p : Cell) : FrameBuffer :=
  fb.set p.1.val (fb[p.1.val] ^^^ BitVec.twoPow 64 p.2.val)

/-- Every cell 0 (43_display.md R190). -/
def FrameBuffer.clear : FrameBuffer := Vector.replicate 32 0

/-- `FB[r][c]` of the machine. -/
def pixel (s : State) (p : Cell) : Bool := FrameBuffer.pixel s.fb p

/-! ### The keys (10_state.md R28) -/

/-- `KEY[k] = 1`. -/
def keyDown (s : State) (k : Fin 16) : Bool := s.key[k.val]

/-- The least `k` with `KEY[k] = 1`, if any (44_keypad_timers.md R202). -/
def leastKey (s : State) : Option (Fin 16) := (List.finRange 16).find? (keyDown s)

/-! ### The random source (10_state.md R36) -/

/-- `Rand()`: the byte that this execution draws. -/
def randByte (s : State) : Byte := Config.randByte s.draws

/-- The draw is used up. -/
def consumeRand (s : State) : State := setDraws s (s.draws + 1)

end Sys2Proof.Machine
end

