-- ==== Sys2Proof/Machine/Operands.lean ====
section
/-! DEFINITION. The operand forms: immediates (30_encoding.md R93), the one addressing mode `I` plus a
constant with its range check (20_memory.md R66, R67), the indices that registers hold
(44_keypad_timers.md R206, 42_index_memory.md R172), and the cells of a sprite (43_display.md R191). -/

namespace Sys2Proof.Machine

/-- `zext_16(nnn)` (30_encoding.md R93). -/
def zextAddr (nnn : Addr12) : Word := nnn.zeroExtend 16

/-- `zext_16` of a byte. -/
def zextByte (b : Byte) : Word := b.zeroExtend 16

/-- The low nibble `b[3:0]` of a byte, as an index. -/
def lowNibble (b : Byte) : Fin 16 := (b.extractLsb' 0 4).toFin

/-- The key that `SKP` and `SKNP` test: `V[x][3:0]` (44_keypad_timers.md R206). -/
def keyIndex (s : State) (x : RegIdx) : Fin 16 := lowNibble (readV s x)

/-- The address of the glyph of `V[x][3:0]`: `5 * V[x][3:0]` (42_index_memory.md R172). -/
def glyphAddr (s : State) (x : RegIdx) : Word := 5 * BitVec.ofNat 16 (lowNibble (readV s x)).val

/-- The base address of a data access, as a number (20_memory.md R66, R67). -/
def dataBase (s : State) : Nat := s.i.toNat

/-- A data access of `len` bytes at `I` stays inside memory: its highest address is at most 0xFFF, in
unbounded arithmetic; an access of no bytes always does (20_memory.md R66). -/
def dataInRange (s : State) (len : Nat) : Bool :=
  len == 0 || decide (dataBase s + (len - 1) < Config.memSize)

/-- `V[0]` to `V[x]`, the registers a block copy moves (42_index_memory.md R175). -/
def regBlock (s : State) (x : RegIdx) : List Byte := s.v.toList.take (x.val + 1)

/-- `V[j] <- MemRead(I + j, 1)` for `j` in `0..x`, the other registers kept (42_index_memory.md R176). -/
def loadBlock (s : State) (x : RegIdx) : Vector Byte 16 :=
  Vector.ofFn fun j => if j ≤ x then readMem s (dataBase s + j.val) else readV s j

/-- The decimal digits of a byte, most significant first (42_index_memory.md R173). -/
def bcdDigits (b : Byte) : List Byte :=
  [BitVec.ofNat 8 (b.toNat / 100), BitVec.ofNat 8 (b.toNat / 10 % 10), BitVec.ofNat 8 (b.toNat % 10)]

/-- The cells that one sprite row inverts: bit `7 - c` of the byte is column offset `c`, and both
coordinates wrap (43_display.md R191). -/
def spriteRowCells (b : Byte) (cx cy r : Nat) : List Cell :=
  ((List.range 8).filter fun c => b.getLsbD (7 - c)).map fun c =>
    (Fin.ofNat 32 (cy + r), Fin.ofNat 64 (cx + c))

/-- The cells that the `n`-row sprite at `I`, drawn at column `cx` and row `cy`, inverts, in the order
of the pseudocode (43_display.md R191). -/
def spriteCells (s : State) (cx cy n : Nat) : List Cell :=
  (List.range n).flatMap fun r => spriteRowCells (readMem s (dataBase s + r)) cx cy r

/-- The framebuffer with each cell of a list inverted in turn (43_display.md R191). -/
def FrameBuffer.blit (fb : FrameBuffer) : List Cell → FrameBuffer
  | [] => fb
  | p :: ps => FrameBuffer.blit (FrameBuffer.invert fb p) ps

/-- The collision of the same walk: a cell was 1 when it was inverted (43_display.md R191). -/
def FrameBuffer.blitHit (fb : FrameBuffer) : List Cell → Bool
  | [] => false
  | p :: ps => FrameBuffer.pixel fb p || FrameBuffer.blitHit (FrameBuffer.invert fb p) ps

end Sys2Proof.Machine
end

