-- ==== Sys2Proof/Machine/Flags.lean ====
section
/-! DEFINITION. The results and flags of the five flag-writing register instructions
(41_alu.md R152), and the one way they are written back: the result, then the flag (R153). -/

namespace Sys2Proof.Machine

/-- `(a + b) mod 256`, computed exactly and narrowed (41_alu.md R152). -/
def addResult (a b : Byte) : Byte := BitVec.ofNat 8 (a.toNat + b.toNat)

/-- Carry: `a + b > 255` (41_alu.md R146). -/
def addCarry (a b : Byte) : Bool := decide (a.toNat + b.toNat > 255)

/-- `(a - b) mod 256 = (a + 256 - b) mod 256` (41_alu.md R152). -/
def subResult (a b : Byte) : Byte := BitVec.ofNat 8 (a.toNat + 256 - b.toNat)

/-- No borrow: `a >= b` (41_alu.md R147). -/
def subNoBorrow (a b : Byte) : Bool := decide (b.toNat ≤ a.toNat)

/-- `a >> 1`; bit 7 becomes 0 (41_alu.md R148). -/
def shrResult (a : Byte) : Byte := a >>> 1

/-- The bit shifted out to the right, `a[0]` (41_alu.md R148). -/
def shrOut (a : Byte) : Bool := a.getLsbD 0

/-- `(a << 1) mod 256`; bit 0 becomes 0 (41_alu.md R150). -/
def shlResult (a : Byte) : Byte := a <<< 1

/-- The bit shifted out to the left, `a[7]` (41_alu.md R150). -/
def shlOut (a : Byte) : Bool := a.getLsbD 7

/-- `V[x] <- r; VF <- f; PC <- npc`, the flag written last so that it wins when `x = 15`
(41_alu.md R153). -/
def writeResultFlag (s : State) (x : RegIdx) (r : Byte) (f : Bool) : State :=
  advance (writeFlag (writeV s x r) f)

end Sys2Proof.Machine
end

