-- ==== Sys2Proof/Machine/Alu.lean ====
section
/-! DEFINITION. Register load, arithmetic, logic, shift and random instructions (41_alu.md). -/

namespace Sys2Proof.Machine

/-- `6xkk LD Vx, kk` (41_alu.md R140). -/
def execLdByte (x : RegIdx) (kk : Byte) (s : State) : Host.Outcome State Fault Refusal :=
  .next (advance (writeV s x kk))

/-- `7xkk ADD Vx, kk` (41_alu.md R141): no flag. -/
def execAddByte (x : RegIdx) (kk : Byte) (s : State) : Host.Outcome State Fault Refusal :=
  .next (advance (writeV s x (addResult (readV s x) kk)))

/-- `8xy0 LD Vx, Vy` (41_alu.md R142). -/
def execLdReg (x y : RegIdx) (s : State) : Host.Outcome State Fault Refusal :=
  .next (advance (writeV s x (readV s y)))

/-- `8xy1 OR Vx, Vy` (41_alu.md R143): no flag. -/
def execOrReg (x y : RegIdx) (s : State) : Host.Outcome State Fault Refusal :=
  .next (advance (writeV s x (readV s x ||| readV s y)))

/-- `8xy2 AND Vx, Vy` (41_alu.md R144): no flag. -/
def execAndReg (x y : RegIdx) (s : State) : Host.Outcome State Fault Refusal :=
  .next (advance (writeV s x (readV s x &&& readV s y)))

/-- `8xy3 XOR Vx, Vy` (41_alu.md R145): no flag. -/
def execXorReg (x y : RegIdx) (s : State) : Host.Outcome State Fault Refusal :=
  .next (advance (writeV s x (readV s x ^^^ readV s y)))

/-- `8xy4 ADD Vx, Vy` (41_alu.md R146): `VF` = carry. -/
def execAddReg (x y : RegIdx) (s : State) : Host.Outcome State Fault Refusal :=
  .next (writeResultFlag s x (addResult (readV s x) (readV s y)) (addCarry (readV s x) (readV s y)))

/-- `8xy5 SUB Vx, Vy` (41_alu.md R147): `VF` = no borrow of `V[x] - V[y]`. -/
def execSubReg (x y : RegIdx) (s : State) : Host.Outcome State Fault Refusal :=
  .next
    (writeResultFlag s x (subResult (readV s x) (readV s y)) (subNoBorrow (readV s x) (readV s y)))

/-- `8xy6 SHR Vx` (41_alu.md R148): `VF` = bit 0 of the old `V[x]`; `y` is ignored. -/
def execShr (x _y : RegIdx) (s : State) : Host.Outcome State Fault Refusal :=
  .next (writeResultFlag s x (shrResult (readV s x)) (shrOut (readV s x)))

/-- `8xy7 SUBN Vx, Vy` (41_alu.md R149): `VF` = no borrow of `V[y] - V[x]`. -/
def execSubnReg (x y : RegIdx) (s : State) : Host.Outcome State Fault Refusal :=
  .next
    (writeResultFlag s x (subResult (readV s y) (readV s x)) (subNoBorrow (readV s y) (readV s x)))

/-- `8xyE SHL Vx` (41_alu.md R150): `VF` = bit 7 of the old `V[x]`; `y` is ignored. -/
def execShl (x _y : RegIdx) (s : State) : Host.Outcome State Fault Refusal :=
  .next (writeResultFlag s x (shlResult (readV s x)) (shlOut (readV s x)))

/-- `Cxkk RND Vx, kk` (41_alu.md R151): one draw, ANDed with `kk`. -/
def execRnd (x : RegIdx) (kk : Byte) (s : State) : Host.Outcome State Fault Refusal :=
  .next (advance (writeV (consumeRand s) x (randByte s &&& kk)))

end Sys2Proof.Machine
end

