-- ==== Sys2Proof/Machine/ControlFlow.lean ====
section
/-! DEFINITION. Control transfer and skip instructions (40_control_flow.md). -/

namespace Sys2Proof.Machine

/-- `0nnn SYS nnn` (40_control_flow.md R120): a no-op that does not set `UNK`; `nnn` is ignored. -/
def execSys (_nnn : Addr12) (s : State) : Host.Outcome State Fault Refusal := .next (advance s)

/-- `00EE RET` (40_control_flow.md R121): `StackUnderflow` at `SP = 0`, else the pop into `PC`. `SP`
above 16 names no entry (log entry 4). -/
def execRet (s : State) : Host.Outcome State Fault Refusal :=
  if s.sp = 0 then raise .stackUnderflow s
  else
    match popReturn s with
    | some (a, s') => .next (setPc s' a)
    | none => .fault .stackPointerOutOfRange

/-- `1nnn JP nnn` (40_control_flow.md R122). -/
def execJp (nnn : Addr12) (s : State) : Host.Outcome State Fault Refusal :=
  .next (setPc s (zextAddr nnn))

/-- `2nnn CALL nnn` (40_control_flow.md R123): `StackOverflow` at `SP = 16`, else the push of `npc` and
the jump. `SP` above 16 names no entry (log entry 4). -/
def execCall (nnn : Addr12) (s : State) : Host.Outcome State Fault Refusal :=
  if s.sp = 16 then raise .stackOverflow s
  else
    match pushReturn s (npc s) with
    | some s' => .next (setPc s' (zextAddr nnn))
    | none => .fault .stackPointerOutOfRange

/-- `Bnnn JP V0, nnn` (40_control_flow.md R125): the sum is not reduced mod 4096. -/
def execJpV0 (nnn : Addr12) (s : State) : Host.Outcome State Fault Refusal :=
  .next (setPc s (zextAddr nnn + zextByte (readV s 0)))

/-- `3xkk SE Vx, kk` (40_control_flow.md R126). -/
def execSeByte (x : RegIdx) (kk : Byte) (s : State) : Host.Outcome State Fault Refusal :=
  .next (skipIf (readV s x == kk) s)

/-- `4xkk SNE Vx, kk` (40_control_flow.md R127). -/
def execSneByte (x : RegIdx) (kk : Byte) (s : State) : Host.Outcome State Fault Refusal :=
  .next (skipIf (readV s x != kk) s)

/-- `5xy0 SE Vx, Vy` (40_control_flow.md R128). -/
def execSeReg (x y : RegIdx) (s : State) : Host.Outcome State Fault Refusal :=
  .next (skipIf (readV s x == readV s y) s)

/-- `9xy0 SNE Vx, Vy` (40_control_flow.md R129). -/
def execSneReg (x y : RegIdx) (s : State) : Host.Outcome State Fault Refusal :=
  .next (skipIf (readV s x != readV s y) s)

end Sys2Proof.Machine
end

