-- ==== Sys2Proof/Machine/Display.lean ====
section
/-! DEFINITION. Display instructions (43_display.md). -/

namespace Sys2Proof.Machine

/-- `00E0 CLS` (43_display.md R190): `VF` is not written. -/
def execCls (s : State) : Host.Outcome State Fault Refusal :=
  .next (advance (setFb s FrameBuffer.clear))

/-- `Dxyn DRW Vx, Vy, n` (43_display.md R191): the range check, then the XOR-blit of `n` sprite rows at
column `V[x]` and row `V[y]`, then `VF` = collision. -/
def execDrw (x y : RegIdx) (n : Nibble) (s : State) : Host.Outcome State Fault Refusal :=
  if dataInRange s n.val then
    let cells := spriteCells s (readV s x).toNat (readV s y).toNat n.val
    .next (advance (writeFlag (setFb s (FrameBuffer.blit s.fb cells)) (FrameBuffer.blitHit s.fb cells)))
  else raise .dataOutOfRange s

end Sys2Proof.Machine
end

