-- ==== Sys2Proof/Machine/IndexMemory.lean ====
section
/-! DEFINITION. Index register and memory instructions (42_index_memory.md). Each memory instruction
checks its whole range before its first write and leaves `I` unchanged (R174). -/

namespace Sys2Proof.Machine

/-- `Annn LD I, nnn` (42_index_memory.md R170). -/
def execLdI (nnn : Addr12) (s : State) : Host.Outcome State Fault Refusal :=
  .next (advance (setI s (zextAddr nnn)))

/-- `Fx1E ADD I, Vx` (42_index_memory.md R171): mod 65536, no flag, no range check. -/
def execAddI (x : RegIdx) (s : State) : Host.Outcome State Fault Refusal :=
  .next (advance (setI s (s.i + zextByte (readV s x))))

/-- `Fx29 LD F, Vx` (42_index_memory.md R172). -/
def execLdF (x : RegIdx) (s : State) : Host.Outcome State Fault Refusal :=
  .next (advance (setI s (glyphAddr s x)))

/-- `Fx33 LD B, Vx` (42_index_memory.md R173). -/
def execLdB (x : RegIdx) (s : State) : Host.Outcome State Fault Refusal :=
  if dataInRange s 3 then .next (advance (writeBytes s (dataBase s) (bcdDigits (readV s x))))
  else raise .dataOutOfRange s

/-- `Fx55 LD [I], Vx` (42_index_memory.md R175). -/
def execStoreRegs (x : RegIdx) (s : State) : Host.Outcome State Fault Refusal :=
  if dataInRange s (x.val + 1) then .next (advance (writeBytes s (dataBase s) (regBlock s x)))
  else raise .dataOutOfRange s

/-- `Fx65 LD Vx, [I]` (42_index_memory.md R176). -/
def execLoadRegs (x : RegIdx) (s : State) : Host.Outcome State Fault Refusal :=
  if dataInRange s (x.val + 1) then .next (advance (setRegs s (loadBlock s x)))
  else raise .dataOutOfRange s

end Sys2Proof.Machine
end

