-- ==== Sys2Proof/Machine/KeypadTimers.lean ====
section
/-! DEFINITION. Keypad and timer instructions (44_keypad_timers.md). -/

namespace Sys2Proof.Machine

/-- `Ex9E SKP Vx` (44_keypad_timers.md R200). -/
def execSkp (x : RegIdx) (s : State) : Host.Outcome State Fault Refusal :=
  .next (skipIf (keyDown s (keyIndex s x)) s)

/-- `ExA1 SKNP Vx` (44_keypad_timers.md R201). -/
def execSknp (x : RegIdx) (s : State) : Host.Outcome State Fault Refusal :=
  .next (skipIf (!keyDown s (keyIndex s x)) s)

/-- `Fx0A LD Vx, K` (44_keypad_timers.md R202): with no key down `MODE <- WAITKEY` and `PC` stays, so
that the next tick runs this instruction again; else the least key into `V[x]` and `MODE <- RUN`. -/
def execLdVxK (x : RegIdx) (s : State) : Host.Outcome State Fault Refusal :=
  match leastKey s with
  | none => .next (setMode s .waitKey)
  | some k => .next (advance (setMode (writeV s x (BitVec.ofNat 8 k.val)) .run))

/-- `Fx07 LD Vx, DT` (44_keypad_timers.md R203). -/
def execLdVxDt (x : RegIdx) (s : State) : Host.Outcome State Fault Refusal :=
  .next (advance (writeV s x s.dt))

/-- `Fx15 LD DT, Vx` (44_keypad_timers.md R204). -/
def execLdDtVx (x : RegIdx) (s : State) : Host.Outcome State Fault Refusal :=
  .next (advance (setDt s (readV s x)))

/-- `Fx18 LD ST, Vx` (44_keypad_timers.md R205). -/
def execLdStVx (x : RegIdx) (s : State) : Host.Outcome State Fault Refusal :=
  .next (advance (setSt s (readV s x)))

end Sys2Proof.Machine
end

