-- ==== Sys2Proof/Machine/Step.lean ====
section
/-! DEFINITION. One `tick` (50_host_and_cycle.md R231), and the placing of an instruction where the next
tick fetches it. -/

namespace Sys2Proof.Machine

/-- `tick()`: nothing while halted; the range check of the fetch; then the decoded instruction, or the
no-op of an unknown word (50_host_and_cycle.md R231, 60_exceptions.md R258). -/
def step (s : State) : Host.Outcome State Fault Refusal :=
  if halted s then .next s
  else if fetchable s then
    match decodeWord (fetchWord s) with
    | .ok i => exec i s
    | .error _ => .next (unknownOpcode s)
  else raise .fetchOutOfRange s

/-- The state in which the next tick fetches: not halted, and `PC` (where it can be fetched from, else
`PROG_BASE`) as it is (log entry 11). -/
def fetchReady (s : State) : State :=
  setFault (if fetchable s then s else setPc s (BitVec.ofNat 16 Config.progBase)) .noFault

/-- The state with a table word stored, big-endian, where the next tick fetches. -/
def State.withFetchWord (s : State) (nbits w : Nat) : State :=
  let r := fetchReady s
  writeBytes r r.pc.toNat [highByte (tableWord nbits w), lowByte (tableWord nbits w)]

end Sys2Proof.Machine
end

