-- ==== Sys2Proof/Machine/HostOps.lean ====
section
/-! DEFINITION. The host's operations (50_host_and_cycle.md R222), each one atomic step, and a run as a
sequence of them (R221). Both take the parameter `FONT` (00_scope.md R5), which `new`, `reset` and
`load` put into memory. -/

namespace Sys2Proof.Machine

/-- The complete list of host operations (50_host_and_cycle.md R222). -/
inductive HostOp where
  /-- `new()` / `create()` (70_reset_and_hazards.md R280) -/
  | new
  /-- `load(rom)` (70_reset_and_hazards.md R282, R283) -/
  | load (rom : List Byte)
  /-- `reset()` (70_reset_and_hazards.md R281) -/
  | reset
  /-- `tick()` (50_host_and_cycle.md R231) -/
  | tick
  /-- `framebuffer_view()` / `gfx()` (50_host_and_cycle.md R228) -/
  | framebufferView
  /-- `set_key(index, pressed)` (50_host_and_cycle.md R226) -/
  | setKey (index : Nat) (pressed : Bool)
  /-- `delay_timer()` (50_host_and_cycle.md R229) -/
  | delayTimer
  /-- `sound_timer()` (50_host_and_cycle.md R229) -/
  | soundTimer
  /-- `decrement_timers()` (60_exceptions.md R261) -/
  | decrementTimers
  /-- the status read of `MODE`, `FAULT`, `UNK`, `sound_on` (50_host_and_cycle.md R229) -/
  | readStatus
deriving DecidableEq, Repr

/-- What an operation answers to the host. -/
inductive HostReply where
  /-- no value -/
  | done
  /-- the error of `load` (60_exceptions.md R254) -/
  | programTooLarge
  /-- the 2048 bytes of the framebuffer view (50_host_and_cycle.md R228) -/
  | view (pixels : List Byte)
  /-- a timer's value -/
  | timer (value : Byte)
  /-- the status outputs -/
  | status (mode : Mode) (fault : FaultCode) (unk soundOn : Bool)
deriving DecidableEq, Repr

/-- `sound_on = (ST != 0)` (10_state.md R27). -/
def soundOn (s : State) : Bool := s.st != 0

/-- The state that `new` brings about, with this `FONT` at 0x000..0x04F (10_state.md R38,
70_reset_and_hazards.md R280). With the default `FONT` it is `State.reset`. -/
def initialState (font : Config.FontTable) : State := writeBytes State.reset 0 font.toList

/-- The state after `new` or `reset` (70_reset_and_hazards.md R280, R281). The random source is not
touched (10_state.md R38), so the model's counter of draws is kept (log entry 12). -/
def resetState (font : Config.FontTable) (s : State) : State := setDraws (initialState font) s.draws

/-- The image fits: `len(rom) + 0x200 <= 4096` (70_reset_and_hazards.md R282). -/
def imageFits (rom : List Byte) : Bool := decide (rom.length + Config.progBase ≤ Config.memSize)

/-- The state after a successful `load`: as after `reset`, with `KEY` kept and the image at 0x200
(70_reset_and_hazards.md R282). -/
def loadState (font : Config.FontTable) (s : State) (rom : List Byte) : State :=
  writeBytes (setKeys (resetState font s) s.key) Config.progBase rom

/-- `KEY[index] <- pressed ? 1 : 0` (50_host_and_cycle.md R226). -/
def setKeyState (s : State) (index : Fin 16) (pressed : Bool) : State :=
  setKeys s (s.key.set index.val pressed)

/-- A timer counted down by one, saturating at 0 (60_exceptions.md R261). -/
def countDown (t : Byte) : Byte := if t = 0 then t else t - 1

/-- Both timers counted down (60_exceptions.md R261). -/
def decrementTimers (s : State) : State := setSt (setDt s (countDown s.dt)) (countDown s.st)

/-- Byte `r * 64 + c` is `FB[r][c]` as 0 or 1 (50_host_and_cycle.md R228). -/
def framebufferView (s : State) : List Byte :=
  (List.range 2048).map fun k =>
    if pixel s (Fin.ofNat 32 (k / 64), Fin.ofNat 64 k) then 1 else 0

/-- One host operation of the machine with this `FONT`: the state after it and its answer. A tick that
stops stops the operation. -/
def hostStep (font : Config.FontTable) (op : HostOp) (s : State) :
    Host.Outcome (State × HostReply) Fault Refusal :=
  match op with
  | .new => .next (resetState font s, .done)
  | .reset => .next (resetState font s, .done)
  | .load rom =>
    if imageFits rom then .next (loadState font s rom, .done) else .next (s, .programTooLarge)
  | .tick =>
    match step s with
    | .next t => .next (t, .done)
    | .fault f => .fault f
    | .refused r => .refused r
  | .framebufferView => .next (s, .view (framebufferView s))
  | .setKey index pressed =>
    if h : index < 16 then .next (setKeyState s ⟨index, h⟩ pressed, .done)
    else .refused (.keyIndexOutOfRange index)
  | .delayTimer => .next (s, .timer s.dt)
  | .soundTimer => .next (s, .timer s.st)
  | .decrementTimers => .next (decrementTimers s, .done)
  | .readStatus => .next (s, .status s.mode s.fault s.unk (soundOn s))

/-- A run: host operations in order, stopping where one stops (50_host_and_cycle.md R221). -/
def runOps (font : Config.FontTable) : List HostOp → State → Host.Outcome State Fault Refusal
  | [], s => .next s
  | op :: ops, s =>
    match hostStep font op s with
    | .next (t, _) => runOps font ops t
    | .fault f => .fault f
    | .refused r => .refused r

end Sys2Proof.Machine
end

