-- ==== Sys2Proof/Safety.lean ====
section
/-! DEFINITION. The terms claims are stated in: which parts of the state two states share, the legal
states (10_state.md R34), and the good and final states of a run (50_host_and_cycle.md R235,
60_exceptions.md R256). -/

namespace Sys2Proof.Machine

/-- The parts of the state, one per row of 10_state.md R39, the registers, the memory and the
framebuffer, and the model's own counter of draws. -/
inductive Part where
  | v | i | pc | sp | stack | dt | st | key | fb | mem | mode | fault | unk | draws
deriving DecidableEq, Repr

/-- The two states agree on a part, read through the machine's own reads. -/
def Part.same (s t : State) : Part → Prop
  | .v => ∀ x, readV t x = readV s x
  | .i => t.i = s.i
  | .pc => t.pc = s.pc
  | .sp => t.sp = s.sp
  | .stack => ∀ j, stackEntry t j = stackEntry s j
  | .dt => t.dt = s.dt
  | .st => t.st = s.st
  | .key => ∀ k, keyDown t k = keyDown s k
  | .fb => ∀ p, pixel t p = pixel s p
  | .mem => ∀ a, readMem t a = readMem s a
  | .mode => t.mode = s.mode
  | .fault => t.fault = s.fault
  | .unk => t.unk = s.unk
  | .draws => t.draws = s.draws

/-- Every part outside the list is unchanged from `s` to `t`. -/
def OnlyChanges (parts : List Part) (s t : State) : Prop := ∀ p, p ∉ parts → Part.same s t p

/-- The only general registers that may differ are those of the list. -/
def RegsKeptBut (changed : List RegIdx) (s t : State) : Prop :=
  ∀ j, j ∉ changed → readV t j = readV s j

/-- Every byte outside the `len` bytes at `a` is unchanged. -/
def MemKeptOutside (a len : Nat) (s t : State) : Prop :=
  ∀ b, (b < a ∨ a + len ≤ b) → readMem t b = readMem s b

/-- `raise Fault(c)` and nothing else (60_exceptions.md R255): `FAULT` is `c` and every other part of
the state is as it was. -/
def Raised (c : FaultCode) (s t : State) : Prop := t.fault = c ∧ OnlyChanges [.fault] s t

/-- The state that `new` leaves, with this `FONT` (70_reset_and_hazards.md R280). The random source is
no part of it. -/
structure Initial (font : Config.FontTable) (t : State) : Prop where
  v : ∀ x, readV t x = 0
  i : t.i = 0
  pc : t.pc = 0x200
  sp : t.sp = 0
  stack : ∀ j, j < 16 → stackEntry t j = some 0
  dt : t.dt = 0
  st : t.st = 0
  key : ∀ k, keyDown t k = false
  fb : ∀ p, pixel t p = false
  glyphs : ∀ a : Fin 80, readMem t a.val = font[a.val]
  mem : ∀ a, 80 ≤ a → a < 4096 → readMem t a = 0
  mode : t.mode = .run
  fault : t.fault = .noFault
  unk : t.unk = false

/-- The legal states (10_state.md R34). The ranges of `FAULT`, `V`, `DT`, `ST`, `FB` and `KEY` are those
of their types; the clause on stack entries is the bound on "a stacked npc" of R23, and the clause
on memory is its canonical form. -/
structure Legal (s : State) : Prop where
  sp : s.sp.toNat ≤ 16
  pc : s.pc.toNat ≤ 0x10FE
  stack : ∀ j a, stackEntry s j = some a → a.toNat ≤ 0x1000
  waiting : s.mode = .waitKey →
    s.fault = .noFault ∧ s.pc.toNat ≤ 0xFFE ∧ ∃ x, decodeWord (fetchWord s) = .ok (.ldVxK x)
  mem : Memory.wf s.mem = true

/-- No fault has been raised since the last reset: what a claim about a program should require of its
end (60_exceptions.md R256). -/
def NotHalted (s : State) : Prop := s.fault = .noFault

/-- The state's next fetch is in range and reads the word of `i` (50_host_and_cycle.md R231). -/
def FetchesInstr (s : State) (i : Instr) : Prop :=
  s.pc.toNat ≤ 0xFFE ∧
    decodeWord (wordOfBytes (readMem s s.pc.toNat) (readMem s (s.pc.toNat + 1))) = .ok i

/-- The final state of a program that ends at `a`: a jump to itself (50_host_and_cycle.md R235 (b)). -/
def FinalAt (a : Addr12) (s : State) : Prop :=
  s.fault = .noFault ∧ s.pc = zextAddr a ∧ FetchesInstr s (.jp a)

/-! ### The shapes of an instruction's effect -/

/-- The instruction completes, writes the value `r` to `V[x]`, advances, and changes nothing else. -/
def WritesReg (i : Instr) (s : State) (x : RegIdx) (r : Nat) : Prop :=
  ∃ t, exec i s = .next t ∧ (readV t x).toNat = r ∧ RegsKeptBut [x] s t ∧ t.pc = s.pc + 2 ∧
    OnlyChanges [.v, .pc] s t

/-- The instruction completes with the result `r` in `V[x]` and the flag in `VF`, the flag being the
last write and so the value of `VF` also when `x = 15`, advances, and changes nothing else. -/
def WritesRegAndFlag (i : Instr) (s : State) (x : RegIdx) (r : Nat) (flag : Prop) : Prop :=
  ∃ t, exec i s = .next t ∧ (x ≠ vf → (readV t x).toNat = r) ∧
    (flag → readV t vf = 1) ∧ (¬ flag → readV t vf = 0) ∧ RegsKeptBut [x, vf] s t ∧
    t.pc = s.pc + 2 ∧ OnlyChanges [.v, .pc] s t

/-- The instruction completes, steps over the next word exactly when the condition holds, and changes
only `PC`. -/
def SkipsWhen (i : Instr) (s : State) (cond : Prop) : Prop :=
  ∃ t, exec i s = .next t ∧ (cond → t.pc = s.pc + 4) ∧ (¬ cond → t.pc = s.pc + 2) ∧
    OnlyChanges [.pc] s t

/-- The instruction completes, writes the value `r` to `I`, advances, and changes nothing else. -/
def WritesIndex (i : Instr) (s : State) (r : Nat) : Prop :=
  ∃ t, exec i s = .next t ∧ t.i.toNat = r ∧ t.pc = s.pc + 2 ∧ OnlyChanges [.i, .pc] s t

/-- The instruction raises the fault `c` and does nothing else. -/
def Raises (i : Instr) (s : State) (c : FaultCode) : Prop := ∃ t, exec i s = .next t ∧ Raised c s t

/-- The cell `p` is inverted by the `n`-row sprite at `I` drawn at column `cx` and row `cy`: a set bit
`7 - c` of sprite row `r` lands on it, both coordinates wrapping (43_display.md R191). -/
def SpriteInverts (s : State) (cx cy n : Nat) (p : Cell) : Prop :=
  ∃ r c, r < n ∧ c < 8 ∧ (readMem s (dataBase s + r)).getLsbD (7 - c) = true ∧
    p.1.val = (cy + r) % 32 ∧ p.2.val = (cx + c) % 64

end Sys2Proof.Machine
end

