-- ==== Sys2Proof/Certificates/Slice0/Obligations.lean ====
section
/-! DEFINITION. The statements for the provers, from the numbered rules of the spec. A statement about a
next state names what changes; `OnlyChanges` and `RegsKeptBut` are its frame. -/

open Sys2Proof Sys2Proof.Machine

/-! ### Reset and the host's operations -/

/-- 70_reset_and_hazards.md R280, for every `FONT`: `new` never fails and brings any state to the initial
state. -/
def Obligations.NewGivesInitialState : Prop :=
  ∀ font s, ∃ t, hostStep font .new s = .next (t, .done) ∧ Initial font t

/-- 70_reset_and_hazards.md R281, R282 and 10_state.md R38 (decisions D12, D13), for every `FONT`:
`reset` gives the initial state; a `load` of an image that fits gives what `reset` would, with `KEY`
kept and the image, byte for byte, at 0x200. Two clauses are the model's own: that the counter of
draws is kept (log entry 12), and that memory has its canonical form (log entry 10). -/
def Obligations.LoadResetsAndCopiesImage : Prop :=
  ∀ font s, ∃ r, hostStep font .reset s = .next (r, .done) ∧ Initial font r ∧ r.draws = s.draws ∧
    ∀ rom, rom.length ≤ 3584 → ∃ t, hostStep font (.load rom) s = .next (t, .done) ∧
      (∀ k b, rom[k]? = some b → readMem t (0x200 + k) = b) ∧
      MemKeptOutside 0x200 rom.length r t ∧ (∀ k, keyDown t k = keyDown s k) ∧
      OnlyChanges [.mem, .key] r t ∧ Memory.wf t.mem = true

/-- 70_reset_and_hazards.md R283: a `load` of an image that does not fit answers `ProgramTooLarge` and
changes nothing. -/
def Obligations.OversizedLoadChangesNothing : Prop :=
  ∀ font s rom, rom.length + 0x200 > 4096 →
    hostStep font (.load rom) s = .next (s, .programTooLarge)

/-- 50_host_and_cycle.md R226, R229 and 60_exceptions.md R261, in every state, halted or not (decisions
D7, D26, D27): `set_key` writes one key, or is refused above 15; `decrement_timers` counts both
timers down, saturating at 0; the reads answer `DT`, `ST` and the status and change nothing. -/
def Obligations.HostWritesKeysAndTimers : Prop :=
  ∀ font s,
    (∀ (k : Fin 16) pressed, ∃ t, hostStep font (.setKey k.val pressed) s = .next (t, .done) ∧
      keyDown t k = pressed ∧ (∀ j, j ≠ k → keyDown t j = keyDown s j) ∧ OnlyChanges [.key] s t) ∧
    (∀ k pressed, 15 < k →
      hostStep font (.setKey k pressed) s = .refused (.keyIndexOutOfRange k)) ∧
    (∃ t, hostStep font .decrementTimers s = .next (t, .done) ∧ t.dt.toNat = s.dt.toNat - 1 ∧
      t.st.toNat = s.st.toNat - 1 ∧ OnlyChanges [.dt, .st] s t) ∧
    hostStep font .delayTimer s = .next (s, .timer s.dt) ∧
    hostStep font .soundTimer s = .next (s, .timer s.st) ∧
    hostStep font .readStatus s =
      .next (s, .status s.mode s.fault s.unk (decide (s.st.toNat ≠ 0)))

/-- 50_host_and_cycle.md R228: the view is 2048 bytes, row-major, 0 or 1 per cell, and reading it has no
effect on the state. -/
def Obligations.FramebufferViewIsRowMajor : Prop :=
  ∀ font s, ∃ l, hostStep font .framebufferView s = .next (s, .view l) ∧ l.length = 2048 ∧
    ∀ (r : Fin 32) (c : Fin 64),
      l[r.val * 64 + c.val]? = some (if pixel s (r, c) = true then 1 else 0)

/-- 60_exceptions.md R262: `v` count-down events bring a timer holding `v` to 0, and fewer do not; no
other part of the state takes part. -/
def Obligations.TimerReachesZeroAfterItsCount : Prop :=
  ∀ font s k, ∃ t, runOps font (List.replicate k .decrementTimers) s = .next t ∧
    t.dt.toNat = s.dt.toNat - k ∧ t.st.toNat = s.st.toNat - k ∧ OnlyChanges [.dt, .st] s t

/-! ### The tick -/

/-- 50_host_and_cycle.md R231, the whole algorithm: halted, fetch range, unknown word, decoded
instruction. The word at `PC` is read big-endian. -/
def Obligations.TickRunsDecodedInstruction : Prop :=
  ∀ s,
    (s.fault ≠ .noFault → step s = .next s) ∧
    (s.fault = .noFault → s.pc.toNat > 0xFFE →
      ∃ t, step s = .next t ∧ Raised .fetchOutOfRange s t) ∧
    (∀ i, s.fault = .noFault → FetchesInstr s i → step s = exec i s) ∧
    (∀ e, s.fault = .noFault → s.pc.toNat ≤ 0xFFE →
      decodeWord (wordOfBytes (readMem s s.pc.toNat) (readMem s (s.pc.toNat + 1))) = .error e →
      ∃ t, step s = .next t ∧ t.pc = s.pc + 2 ∧ t.unk = true ∧ OnlyChanges [.pc, .unk] s t)

/-- 60_exceptions.md R256, R257 (decision D7): while the core is halted no operation but `new`, `reset`
and a `load` that fits changes `FAULT`, and a tick changes nothing at all. -/
def Obligations.OnlyResetsLeaveHaltedState : Prop :=
  ∀ font op s t r, s.fault ≠ .noFault → hostStep font op s = .next (t, r) →
    (t.fault = s.fault ∨ op = .new ∨ op = .reset ∨ ∃ rom, op = .load rom ∧ rom.length ≤ 3584) ∧
    (op = .tick → t = s)

/-- 60_exceptions.md R255 (decision D6): faults are precise. A tick that leaves the core halted changed
`FAULT` and nothing else. -/
def Obligations.FaultingTickChangesOnlyFault : Prop :=
  ∀ s t, s.fault = .noFault → step s = .next t → t.fault ≠ .noFault → Raised t.fault s t

/-- 60_exceptions.md R252: which instruction can raise what, and when. -/
def Obligations.FaultsComeFromTheirInstructions : Prop :=
  ∀ i s t, s.fault = .noFault → exec i s = .next t → t.fault ≠ .noFault →
    (t.fault = .stackOverflow ∧ s.sp.toNat = 16 ∧ ∃ nnn, i = .call nnn) ∨
    (t.fault = .stackUnderflow ∧ s.sp.toNat = 0 ∧ i = .ret) ∨
    (t.fault = .dataOutOfRange ∧
      ((∃ x y n, i = .drw x y n ∧ 1 ≤ n.val ∧ s.i.toNat + n.val - 1 > 0xFFF) ∨
       (∃ x, i = .ldB x ∧ s.i.toNat + 2 > 0xFFF) ∨
       (∃ x, i = .storeRegs x ∧ s.i.toNat + x.val > 0xFFF) ∨
       (∃ x, i = .loadRegs x ∧ s.i.toNat + x.val > 0xFFF)))

/-- 50_host_and_cycle.md R234: what a tick can change, part by part. A tick never changes `KEY`. It
changes `V`, `I`, `SP`, the stack, a timer, the framebuffer, memory or `MODE` only if it fetches one of
the instructions that write that part, and `UNK` only if it fetches an unknown word. It changes `FAULT`
only by a fault, and then nothing else; and `PC` only if the core is not halted, does not fault and
does not wait for a key. The clause on `draws`, the model's own counter, rests on log entry 2. -/
def Obligations.TickChangesPartsOnlyByTheirInstructions : Prop :=
  ∀ s t, step s = .next t →
    Part.same s t .key ∧
    (¬ Part.same s t .v → ∃ x,
      FetchesInstr s (.ldVxDt x) ∨ FetchesInstr s (.ldVxK x) ∨ FetchesInstr s (.loadRegs x) ∨
      (∃ kk, FetchesInstr s (.ldByte x kk) ∨ FetchesInstr s (.addByte x kk) ∨
        FetchesInstr s (.rnd x kk)) ∨
      ∃ y, FetchesInstr s (.ldReg x y) ∨ FetchesInstr s (.orReg x y) ∨
        FetchesInstr s (.andReg x y) ∨ FetchesInstr s (.xorReg x y) ∨
        FetchesInstr s (.addReg x y) ∨ FetchesInstr s (.subReg x y) ∨
        FetchesInstr s (.subnReg x y) ∨ FetchesInstr s (.shr x y) ∨ FetchesInstr s (.shl x y) ∨
        ∃ n, FetchesInstr s (.drw x y n)) ∧
    (¬ Part.same s t .i →
      (∃ nnn, FetchesInstr s (.ldI nnn)) ∨ ∃ x, FetchesInstr s (.addI x) ∨ FetchesInstr s (.ldF x)) ∧
    (¬ Part.same s t .pc → s.fault = .noFault ∧ t.fault = .noFault ∧ s.pc.toNat ≤ 0xFFE ∧
      ∀ x, FetchesInstr s (.ldVxK x) → ∃ k, keyDown s k = true) ∧
    (¬ Part.same s t .sp → FetchesInstr s .ret ∨ ∃ nnn, FetchesInstr s (.call nnn)) ∧
    (¬ Part.same s t .stack → ∃ nnn, FetchesInstr s (.call nnn)) ∧
    (¬ Part.same s t .dt → ∃ x, FetchesInstr s (.ldDtVx x)) ∧
    (¬ Part.same s t .st → ∃ x, FetchesInstr s (.ldStVx x)) ∧
    (¬ Part.same s t .fb → FetchesInstr s .cls ∨ ∃ x y n, FetchesInstr s (.drw x y n)) ∧
    (¬ Part.same s t .mem → ∃ x, FetchesInstr s (.ldB x) ∨ FetchesInstr s (.storeRegs x)) ∧
    (¬ Part.same s t .mode → ∃ x, FetchesInstr s (.ldVxK x)) ∧
    (¬ Part.same s t .fault → s.fault = .noFault ∧ Raised t.fault s t ∧
      (t.fault = .fetchOutOfRange ∧ s.pc.toNat > 0xFFE ∨
       t.fault = .stackUnderflow ∧ FetchesInstr s .ret ∨
       (t.fault = .stackOverflow ∧ ∃ nnn, FetchesInstr s (.call nnn)) ∨
       t.fault = .dataOutOfRange ∧ ∃ x, FetchesInstr s (.ldB x) ∨ FetchesInstr s (.storeRegs x) ∨
         FetchesInstr s (.loadRegs x) ∨ ∃ y n, FetchesInstr s (.drw x y n))) ∧
    (¬ Part.same s t .unk →
      s.pc.toNat ≤ 0xFFE ∧ ∃ e, decodeWord (fetchWord s) = .error e) ∧
    (¬ Part.same s t .draws → ∃ x kk, FetchesInstr s (.rnd x kk))

/-- 50_host_and_cycle.md R235: the states that a tick leaves as they are. The rule lists the halted
core, a jump to itself and the wait for a key; by 40_control_flow.md R125 `JP V0, nnn` to its own
address is one more (log entry 15). -/
def Obligations.TickFixedPoints : Prop :=
  ∀ s, step s = .next s ↔
    s.fault ≠ .noFault ∨
    (∃ nnn, FetchesInstr s (.jp nnn) ∧ s.pc.toNat = nnn.toNat) ∨
    (∃ nnn, FetchesInstr s (.jpV0 nnn) ∧ s.pc.toNat = nnn.toNat + (readV s 0).toNat) ∨
    (∃ x, FetchesInstr s (.ldVxK x) ∧ (∀ k, keyDown s k = false) ∧ s.mode = .waitKey)

/-- 40_control_flow.md R120, 60_exceptions.md R253 and 70_reset_and_hazards.md R281: zeroed memory runs
as no-ops, two bytes a tick, until the fetch faults; after a `reset` 1792 ticks bring `PC` to 0x1000. -/
def Obligations.ZeroedMemoryRunsAsNoOps : Prop :=
  ∀ font,
    (∀ s k, s.fault = .noFault → (∀ a, s.pc.toNat ≤ a → a < 4096 → readMem s a = 0) →
      s.pc.toNat + 2 * k ≤ 0x1000 →
      (∃ t, runOps font (List.replicate k .tick) s = .next t ∧ t.pc.toNat = s.pc.toNat + 2 * k ∧
        OnlyChanges [.pc] s t) ∧
      (s.pc.toNat + 2 * k > 0xFFE →
        ∃ u, runOps font (List.replicate (k + 1) .tick) s = .next u ∧ u.fault = .fetchOutOfRange ∧
          u.pc.toNat = s.pc.toNat + 2 * k ∧ OnlyChanges [.pc, .fault] s u)) ∧
    ∀ s, ∃ t, runOps font (.reset :: List.replicate 1792 .tick) s = .next t ∧
      t.pc.toNat = 0x1000 ∧ t.fault = .noFault

/-- 20_memory.md R72: a block store over the next instruction is what the next tick fetches. -/
def Obligations.StoreIsSeenByNextFetch : Prop :=
  ∀ s (x j k : RegIdx), dataBase s + x.val ≤ 0xFFF → k ≤ x → k.val = j.val + 1 →
    dataBase s + j.val = (s.pc + 2).toNat →
    ∃ t, exec (.storeRegs x) s = .next t ∧ fetchWord t = wordOfBytes (readV s j) (readV s k)

/-! ### Encoding -/

/-- 30_encoding.md R94, R95: every well-formed instruction is what its word decodes to. `SHR` and `SHL`
carry the field `y` that the hardware ignores, which is the model's choice (log entry 7). -/
def Obligations.DecodeOfEncode : Prop :=
  ∀ i, i.wf = true → decodeWord (encode i) = .ok i

/-- 30_encoding.md R94, R95: a word that decodes is the encoding of its instruction, which is
well-formed, so decoding drops no bit. For `8xy6` and `8xyE` with `y` other than 0, which an assembler
does not emit (R96, decision D28), that holds because the model's terms keep the ignored `y` (log
entry 7). -/
def Obligations.EncodeOfDecode : Prop :=
  ∀ op i, decodeWord op = .ok i → i.wf = true ∧ encode i = op

/-- 30_encoding.md R95: a word decodes only to an instruction whose row it matches, and a word that
matches a row (with the two exact words taken out of the `SYS` row) decodes to an instruction of
that row. -/
def Obligations.DecoderFollowsTheOpcodeMap : Prop :=
  (∀ op i, decodeWord op = .ok i → op &&& rowMask i = rowMatch i) ∧
  ∀ op i, op &&& rowMask i = rowMatch i →
    ((∃ nnn, i = .sys nnn) → op ≠ 0x00E0#16 ∧ op ≠ 0x00EE#16) →
    ∃ j, decodeWord op = .ok j ∧ rowMask j = rowMask i ∧ rowMatch j = rowMatch i

/-- 30_encoding.md R98: the words that are no instruction are exactly the five patterns. -/
def Obligations.UnknownWordsAreTheFivePatterns : Prop :=
  ∀ op : Word,
    let c := op.toNat / 4096
    let n := op.toNat % 16
    let kk := op.toNat % 256
    (∃ e, decodeWord op = .error e) ↔
      (c = 5 ∧ n ≠ 0) ∨ (c = 8 ∧ n ∈ [8, 9, 0xA, 0xB, 0xC, 0xD, 0xF]) ∨ (c = 9 ∧ n ≠ 0) ∨
      (c = 0xE ∧ kk ∉ [0x9E, 0xA1]) ∨
      (c = 0xF ∧ kk ∉ [0x07, 0x0A, 0x15, 0x18, 0x1E, 0x29, 0x33, 0x55, 0x65])

/-- 30_encoding.md R95, R96 and 95_test_vectors.md: words written out in the spec decode to the
instructions they stand for, the four words that the source itself gives among them. -/
def Obligations.SpecWordsDecode : Prop :=
  decodeWord 0x00E0#16 = .ok .cls ∧
  decodeWord 0x6A02#16 = .ok (.ldByte 0xA 0x02#8) ∧
  decodeWord 0x7A01#16 = .ok (.addByte 0xA 0x01#8) ∧
  decodeWord 0xF50A#16 = .ok (.ldVxK 5) ∧
  decodeWord 0x220A#16 = .ok (.call 0x20A#12) ∧
  decodeWord 0x8014#16 = .ok (.addReg 0 1) ∧
  decodeWord 0xD012#16 = .ok (.drw 0 1 2) ∧
  decodeWord 0xF265#16 = .ok (.loadRegs 2) ∧
  decodeWord 0x5121#16 = .error .unknown5xyN

/-! ### Control transfer and skips -/

/-- 40_control_flow.md R120 (decision D3): `SYS` advances and does nothing else, whatever `nnn`. -/
def Obligations.SysIsANoOp : Prop :=
  ∀ s nnn, ∃ t, exec (.sys nnn) s = .next t ∧ t.pc = s.pc + 2 ∧ OnlyChanges [.pc] s t

/-- 40_control_flow.md R122, R125: the absolute jumps, unchecked, the second to `nnn + V0`, not reduced
mod 4096. -/
def Obligations.JumpsOverwritePc : Prop :=
  ∀ s nnn,
    (∃ t, exec (.jp nnn) s = .next t ∧ t.pc.toNat = nnn.toNat ∧ OnlyChanges [.pc] s t) ∧
    (∃ t, exec (.jpV0 nnn) s = .next t ∧ t.pc.toNat = nnn.toNat + (readV s 0).toNat ∧
      OnlyChanges [.pc] s t)

/-- 40_control_flow.md R123: `CALL` pushes the post-fetch PC and jumps. -/
def Obligations.CallPushesReturnAddress : Prop :=
  ∀ s nnn, s.sp.toNat < 16 →
    ∃ t, exec (.call nnn) s = .next t ∧ stackEntry t s.sp.toNat = some (s.pc + 2) ∧
      (∀ j, j ≠ s.sp.toNat → stackEntry t j = stackEntry s j) ∧
      t.sp.toNat = s.sp.toNat + 1 ∧ t.pc.toNat = nnn.toNat ∧ OnlyChanges [.stack, .sp, .pc] s t

/-- 40_control_flow.md R121: `RET` pops the top entry into `PC` and leaves the entry (decision D23). -/
def Obligations.RetPopsReturnAddress : Prop :=
  ∀ s, 0 < s.sp.toNat → s.sp.toNat ≤ 16 →
    ∃ t, exec .ret s = .next t ∧ stackEntry s (s.sp.toNat - 1) = some t.pc ∧
      t.sp.toNat = s.sp.toNat - 1 ∧ OnlyChanges [.sp, .pc] s t

/-- 60_exceptions.md R251 (decision D4): `CALL` at `SP = 16` raises `StackOverflow` and `RET` at
`SP = 0` raises `StackUnderflow`; with `SP` above 16, which no run reaches, both stop by name (the
model's choice, log entry 4). -/
def Obligations.StackLimitsFault : Prop :=
  ∀ s nnn,
    (s.sp.toNat = 16 → Raises (.call nnn) s .stackOverflow) ∧
    (s.sp.toNat = 0 → Raises .ret s .stackUnderflow) ∧
    (16 < s.sp.toNat → exec (.call nnn) s = .fault .stackPointerOutOfRange) ∧
    (16 < s.sp.toNat → exec .ret s = .fault .stackPointerOutOfRange)

/-- 95_test_vectors.md S5: a `RET` at which the stack is as the `CALL` left it returns to the
instruction after the `CALL`, and brings `SP` back. -/
def Obligations.RetReturnsAfterCall : Prop :=
  ∀ s t u nnn, s.sp.toNat < 16 → exec (.call nnn) s = .next t → u.sp = t.sp →
    (∀ j, j < 16 → stackEntry u j = stackEntry t j) →
    ∃ w, exec .ret u = .next w ∧ w.pc = s.pc + 2 ∧ w.sp = s.sp

/-- 40_control_flow.md R126 to R129: the four comparison skips, on unsigned 8-bit values. -/
def Obligations.ComparisonSkips : Prop :=
  ∀ s x y kk,
    SkipsWhen (.seByte x kk) s ((readV s x).toNat = kk.toNat) ∧
    SkipsWhen (.sneByte x kk) s ((readV s x).toNat ≠ kk.toNat) ∧
    SkipsWhen (.seReg x y) s ((readV s x).toNat = (readV s y).toNat) ∧
    SkipsWhen (.sneReg x y) s ((readV s x).toNat ≠ (readV s y).toNat)

/-- 44_keypad_timers.md R200, R201, R206 (decision D10): the key tested is that of the low nibble of
`V[x]`. -/
def Obligations.KeySkips : Prop :=
  ∀ s x (k : Fin 16), k.val = (readV s x).toNat % 16 →
    SkipsWhen (.skp x) s (keyDown s k = true) ∧ SkipsWhen (.sknp x) s (keyDown s k = false)

/-! ### Registers -/

/-- 41_alu.md R140, R142 and 44_keypad_timers.md R203: the loads of a register, `VF` as any other. -/
def Obligations.RegisterLoads : Prop :=
  ∀ s x y kk,
    WritesReg (.ldByte x kk) s x kk.toNat ∧
    WritesReg (.ldReg x y) s x (readV s y).toNat ∧
    WritesReg (.ldVxDt x) s x s.dt.toNat

/-- 41_alu.md R141, R143 to R145 (decision D16): addition of a byte and the bitwise operations write no
flag. -/
def Obligations.FlaglessArithmetic : Prop :=
  ∀ s x y kk,
    WritesReg (.addByte x kk) s x (((readV s x).toNat + kk.toNat) % 256) ∧
    WritesReg (.orReg x y) s x ((readV s x).toNat ||| (readV s y).toNat) ∧
    WritesReg (.andReg x y) s x ((readV s x).toNat &&& (readV s y).toNat) ∧
    WritesReg (.xorReg x y) s x ((readV s x).toNat ^^^ (readV s y).toNat)

/-- 41_alu.md R146, R147, R149, R153 (decision D8): sum with carry and the two differences with no
borrow; the flag wins when `x = 15`, and the operands are the old values, also of `VF`. -/
def Obligations.SumAndDifferencesSetFlag : Prop :=
  ∀ s x y,
    WritesRegAndFlag (.addReg x y) s x (((readV s x).toNat + (readV s y).toNat) % 256)
      ((readV s x).toNat + (readV s y).toNat > 255) ∧
    WritesRegAndFlag (.subReg x y) s x (((readV s x).toNat + 256 - (readV s y).toNat) % 256)
      ((readV s x).toNat ≥ (readV s y).toNat) ∧
    WritesRegAndFlag (.subnReg x y) s x (((readV s y).toNat + 256 - (readV s x).toNat) % 256)
      ((readV s y).toNat ≥ (readV s x).toNat)

/-- 41_alu.md R148, R150, R153 (decisions D8, D28): the shifts of `V[x]` by one, for every value of the
ignored field `y`; the flag is the bit shifted out. -/
def Obligations.ShiftsSetFlag : Prop :=
  ∀ s x y,
    WritesRegAndFlag (.shr x y) s x ((readV s x).toNat / 2) ((readV s x).toNat % 2 = 1) ∧
    WritesRegAndFlag (.shl x y) s x (2 * (readV s x).toNat % 256) ((readV s x).toNat ≥ 128)

/-- 41_alu.md R151: `RND` draws exactly one byte, the free value, and writes its AND with `kk`; so no
bit outside `kk` is ever set. -/
def Obligations.RndMasksOneDraw : Prop :=
  ∀ s x kk, ∃ t, exec (.rnd x kk) s = .next t ∧
    readV t x = Config.randByte s.draws &&& kk ∧ readV t x &&& ~~~kk = 0 ∧
    t.draws = s.draws + 1 ∧ RegsKeptBut [x] s t ∧ t.pc = s.pc + 2 ∧
    OnlyChanges [.v, .pc, .draws] s t

/-! ### Index register and memory -/

/-- 42_index_memory.md R170: `LD I`. -/
def Obligations.LoadIndex : Prop := ∀ s nnn, WritesIndex (.ldI nnn) s nnn.toNat

/-- 42_index_memory.md R171, R172 (decisions D11, D16, D22): `ADD I` mod 65536 with no flag, and the
glyph address of the low nibble. -/
def Obligations.IndexArithmetic : Prop :=
  ∀ s x,
    WritesIndex (.addI x) s ((s.i.toNat + (readV s x).toNat) % 65536) ∧
    WritesIndex (.ldF x) s (5 * ((readV s x).toNat % 16))

/-- 42_index_memory.md R173 (decisions D5, D9): the three decimal digits, most significant first, or
the fault; `I` is unchanged. -/
def Obligations.BcdStoresThreeDigits : Prop :=
  ∀ s x,
    (dataBase s + 2 ≤ 0xFFF → ∃ t, exec (.ldB x) s = .next t ∧
      (readMem t (dataBase s)).toNat = (readV s x).toNat / 100 ∧
      (readMem t (dataBase s + 1)).toNat = (readV s x).toNat / 10 % 10 ∧
      (readMem t (dataBase s + 2)).toNat = (readV s x).toNat % 10 ∧
      MemKeptOutside (dataBase s) 3 s t ∧ t.pc = s.pc + 2 ∧ OnlyChanges [.mem, .pc] s t) ∧
    (dataBase s + 2 > 0xFFF → Raises (.ldB x) s .dataOutOfRange)

/-- 42_index_memory.md R175 (decisions D5, D9): the block store of `V0` to `Vx` at `I`. -/
def Obligations.BlockStore : Prop :=
  ∀ s (x : RegIdx), dataBase s + x.val ≤ 0xFFF →
    ∃ t, exec (.storeRegs x) s = .next t ∧
      (∀ j : RegIdx, j ≤ x → readMem t (dataBase s + j.val) = readV s j) ∧
      MemKeptOutside (dataBase s) (x.val + 1) s t ∧ t.pc = s.pc + 2 ∧ OnlyChanges [.mem, .pc] s t

/-- 42_index_memory.md R176 (decisions D5, D9): the block load of `V0` to `Vx` from `I`. -/
def Obligations.BlockLoad : Prop :=
  ∀ s (x : RegIdx), dataBase s + x.val ≤ 0xFFF →
    ∃ t, exec (.loadRegs x) s = .next t ∧
      (∀ j : RegIdx, j ≤ x → readV t j = readMem s (dataBase s + j.val)) ∧
      (∀ j : RegIdx, x < j → readV t j = readV s j) ∧ t.pc = s.pc + 2 ∧
      OnlyChanges [.v, .pc] s t

/-- 20_memory.md R66 (decision D5): a block copy or a sprite whose highest address is above 0xFFF raises
`DataOutOfRange` and does nothing else. -/
def Obligations.DataOutOfRangeFaults : Prop :=
  ∀ s (x y : RegIdx) (n : Nibble),
    (dataBase s + x.val > 0xFFF → Raises (.storeRegs x) s .dataOutOfRange) ∧
    (dataBase s + x.val > 0xFFF → Raises (.loadRegs x) s .dataOutOfRange) ∧
    (1 ≤ n.val → dataBase s + n.val - 1 > 0xFFF → Raises (.drw x y n) s .dataOutOfRange)

/-- 95_test_vectors.md S6: a block store followed, from the same `I` and with the stored bytes kept, by
the block load of the same registers yields the original values. -/
def Obligations.BlockRoundTrip : Prop :=
  ∀ s t u (x : RegIdx), dataBase s + x.val ≤ 0xFFF → exec (.storeRegs x) s = .next t → u.i = t.i →
    (∀ a, dataBase s ≤ a → a ≤ dataBase s + x.val → readMem u a = readMem t a) →
    ∃ w, exec (.loadRegs x) u = .next w ∧ ∀ j : RegIdx, j ≤ x → readV w j = readV s j

/-! ### Display -/

/-- 43_display.md R190: `CLS` zeroes every cell and writes no flag. -/
def Obligations.ClsClearsEveryPixel : Prop :=
  ∀ s, ∃ t, exec .cls s = .next t ∧ (∀ p, pixel t p = false) ∧ t.pc = s.pc + 2 ∧
    OnlyChanges [.fb, .pc] s t

/-- 43_display.md R191 (decisions D5, D8, D17, D20): `DRW` inverts exactly the cells the sprite lands
on, with wrap, and `VF` is 1 exactly when one of them was 1; a sprite of no rows is always in range. -/
def Obligations.DrwXorsSprite : Prop :=
  ∀ s x y (n : Nibble), (n.val = 0 ∨ dataBase s + n.val - 1 ≤ 0xFFF) →
    ∃ t, exec (.drw x y n) s = .next t ∧
      (∀ p, SpriteInverts s (readV s x).toNat (readV s y).toNat n.val p →
        pixel t p = !pixel s p) ∧
      (∀ p, ¬ SpriteInverts s (readV s x).toNat (readV s y).toNat n.val p →
        pixel t p = pixel s p) ∧
      ((∃ p, SpriteInverts s (readV s x).toNat (readV s y).toNat n.val p ∧ pixel s p = true) →
        readV t vf = 1) ∧
      ((∀ p, SpriteInverts s (readV s x).toNat (readV s y).toNat n.val p → pixel s p = false) →
        readV t vf = 0) ∧
      RegsKeptBut [vf] s t ∧ t.pc = s.pc + 2 ∧ OnlyChanges [.v, .fb, .pc] s t

/-- 43_display.md R192 (a): drawing the same sprite at the same coordinates a second time restores the
framebuffer, and the second draw collides exactly when some cell the sprite inverts was 0 before the
first. The second draw may name other registers that hold the coordinates (the first may have
written one of its own, `VF`). -/
def Obligations.DrwTwiceRestores : Prop :=
  ∀ s t u x y x' y' (n : Nibble), (n.val = 0 ∨ dataBase s + n.val - 1 ≤ 0xFFF) →
    exec (.drw x y n) s = .next t → OnlyChanges [.v, .pc] t u →
    readV u x' = readV s x → readV u y' = readV s y →
    ∃ w, exec (.drw x' y' n) u = .next w ∧ (∀ p, pixel w p = pixel s p) ∧
      (readV w vf = 1 ↔
        ∃ p, SpriteInverts s (readV s x).toNat (readV s y).toNat n.val p ∧ pixel s p = false)

/-! ### Keypad and timers -/

/-- 44_keypad_timers.md R202 (decision D21): with no key down only `MODE` changes, to `WAITKEY`, and
`PC` stays; else the least key's index is stored and the core runs on. -/
def Obligations.KeyWait : Prop :=
  ∀ s x,
    ((∀ k, keyDown s k = false) →
      ∃ t, exec (.ldVxK x) s = .next t ∧ t.mode = .waitKey ∧ OnlyChanges [.mode] s t) ∧
    (∀ k, keyDown s k = true → (∀ j, j < k → keyDown s j = false) →
      ∃ t, exec (.ldVxK x) s = .next t ∧ (readV t x).toNat = k.val ∧ t.mode = .run ∧
        RegsKeptBut [x] s t ∧ t.pc = s.pc + 2 ∧ OnlyChanges [.v, .mode, .pc] s t)

/-- 44_keypad_timers.md R204, R205: the timer loads. -/
def Obligations.TimerLoads : Prop :=
  ∀ s x,
    (∃ t, exec (.ldDtVx x) s = .next t ∧ t.dt = readV s x ∧ t.pc = s.pc + 2 ∧
      OnlyChanges [.dt, .pc] s t) ∧
    (∃ t, exec (.ldStVx x) s = .next t ∧ t.st = readV s x ∧ t.pc = s.pc + 2 ∧
      OnlyChanges [.st, .pc] s t)

/-! ### Invariants -/

/-- 10_state.md R34 at the start: the reset state is legal. In `Legal` the clause on memory is the
canonical form, the model's own (log entry 10), here and in the three statements that follow. -/
def Obligations.ResetIsLegal : Prop := Legal State.reset

/-- 10_state.md R34 for a tick: from every legal state, reached or not, a tick answers a next state, and
that state is legal. -/
def Obligations.TickKeepsLegal : Prop :=
  ∀ s, Legal s → ∃ t, step s = .next t ∧ Legal t

/-- 10_state.md R34 for the host's operations: from every legal state, every operation answers (a
`set_key` with an index inside the interface), and leaves a legal state. -/
def Obligations.HostOpsKeepLegal : Prop :=
  ∀ font s op, Legal s → (∀ k pressed, op = .setKey k pressed → k ≤ 15) →
    ∃ t r, hostStep font op s = .next (t, r) ∧ Legal t

/-- 10_state.md R34, 50_host_and_cycle.md R221: every run of host operations from a legal state runs to
its end, through legal states, whatever the schedule. -/
def Obligations.RunsStayLegal : Prop :=
  ∀ font ops s, Legal s → (∀ op, op ∈ ops → ∀ k pressed, op = .setKey k pressed → k ≤ 15) →
    ∃ t, runOps font ops s = .next t ∧ Legal t

/-- The canonical form of memory, in every state (log entry 10): a tick keeps it. -/
def Obligations.TickKeepsMemoryCanonical : Prop :=
  ∀ s t, Memory.wf s.mem = true → step s = .next t → Memory.wf t.mem = true

/-- 10_state.md R38 for `State.reset`, which is the initial state of the machine with the default `FONT`
(the model's choice of the parameter, log entry 3) and with no draw made (log entry 2): `new` brings
any state that has made none to `State.reset` itself, byte for byte of its data. -/
def Obligations.ResetIsInitialForDefaultFont : Prop :=
  Initial Config.defaultFont State.reset ∧
  ∀ s, s.draws = 0 → hostStep Config.defaultFont .new s = .next (State.reset, .done)
end

