-- ==== Sys2Proof/Laws/Decode.lean ====
section
/-! SUPPORT. The fields of a word as numbers, the words of the encoder as numbers, and the fields that
the decoder reads back from them. -/

namespace Sys2Proof

/-! ### Fields as numbers (30_encoding.md R92) -/

theorem fieldCategory_val (op : Word) : (fieldCategory op).val = op.toNat / 4096 := by
  have : op.toNat < 65536 := op.isLt
  simp only [fieldCategory, BitVec.val_toFin, BitVec.extractLsb'_toNat, Nat.shiftRight_eq_div_pow]
  omega

theorem fieldX_val (op : Word) : (fieldX op).val = op.toNat / 256 % 16 := by
  simp only [fieldX, BitVec.val_toFin, BitVec.extractLsb'_toNat, Nat.shiftRight_eq_div_pow]

theorem fieldY_val (op : Word) : (fieldY op).val = op.toNat / 16 % 16 := by
  simp only [fieldY, BitVec.val_toFin, BitVec.extractLsb'_toNat, Nat.shiftRight_eq_div_pow]

theorem fieldN_val (op : Word) : (fieldN op).val = op.toNat % 16 := by
  simp only [fieldN, BitVec.val_toFin, BitVec.extractLsb'_toNat, Nat.shiftRight_zero]

theorem fieldKk_toNat (op : Word) : (fieldKk op).toNat = op.toNat % 256 := by
  simp only [fieldKk, BitVec.extractLsb'_toNat, Nat.shiftRight_zero]

theorem fieldNnn_toNat (op : Word) : (fieldNnn op).toNat = op.toNat % 4096 := by
  simp only [fieldNnn, BitVec.extractLsb'_toNat, Nat.shiftRight_zero]

theorem wordOfBytes_toNat (hi lo : Byte) : (wordOfBytes hi lo).toNat = hi.toNat * 256 + lo.toNat := by
  have : lo.toNat < 256 := lo.isLt
  simp only [wordOfBytes, BitVec.toNat_append]
  rw [← Nat.shiftLeft_add_eq_or_of_lt this, Nat.shiftLeft_eq]

/-- The two bytes of a word, put together again, are the word. -/
theorem wordOfBytes_bytes (op : Word) : wordOfBytes (highByte op) (lowByte op) = op := by
  apply BitVec.eq_of_toNat_eq
  have : op.toNat < 65536 := op.isLt
  rw [wordOfBytes_toNat]
  simp only [highByte, lowByte, BitVec.extractLsb'_toNat, Nat.shiftRight_eq_div_pow]
  omega

/-! ### The encoder's words as numbers (30_encoding.md R91) -/

theorem nibbleBits_toNat (k : Fin 16) : (nibbleBits k).toNat = k.val := rfl

theorem encodeA_toNat (c : BitVec 4) (nnn : Addr12) :
    (encodeA c nnn).toNat = c.toNat * 4096 + nnn.toNat := by
  have : nnn.toNat < 4096 := nnn.isLt
  simp only [encodeA, BitVec.toNat_append]
  rw [← Nat.shiftLeft_add_eq_or_of_lt this, Nat.shiftLeft_eq]

theorem encodeXK_toNat (c : BitVec 4) (x : RegIdx) (kk : Byte) :
    (encodeXK c x kk).toNat = c.toNat * 4096 + x.val * 256 + kk.toNat := by
  have hk : kk.toNat < 256 := kk.isLt
  have hx : x.val < 16 := x.isLt
  simp only [encodeXK, BitVec.toNat_append, nibbleBits_toNat]
  rw [← Nat.shiftLeft_add_eq_or_of_lt hk, ← Nat.shiftLeft_add_eq_or_of_lt hx, Nat.shiftLeft_eq,
    Nat.shiftLeft_eq]
  generalize x.val = a
  omega

theorem encodeXYN_toNat (c : BitVec 4) (x y : RegIdx) (n : BitVec 4) :
    (encodeXYN c x y n).toNat = c.toNat * 4096 + x.val * 256 + y.val * 16 + n.toNat := by
  have hn : n.toNat < 16 := n.isLt
  have hx : x.val < 16 := x.isLt
  have hy : y.val < 16 := y.isLt
  simp only [encodeXYN, BitVec.toNat_append, nibbleBits_toNat]
  rw [← Nat.shiftLeft_add_eq_or_of_lt hn, ← Nat.shiftLeft_add_eq_or_of_lt hy,
    ← Nat.shiftLeft_add_eq_or_of_lt hx, Nat.shiftLeft_eq, Nat.shiftLeft_eq, Nat.shiftLeft_eq]
  generalize x.val = a, y.val = b
  omega

/-! ### The fields of the encoder's words -/

section fields
variable (c n : BitVec 4) (x y : RegIdx) (kk : Byte) (nnn : Addr12)

@[simp] theorem fieldCategory_encodeA : fieldCategory (encodeA c nnn) = c.toFin := by
  have : nnn.toNat < 4096 := nnn.isLt
  apply Fin.ext; rw [fieldCategory_val, encodeA_toNat, BitVec.val_toFin c]; omega

@[simp] theorem fieldNnn_encodeA : fieldNnn (encodeA c nnn) = nnn := by
  have : nnn.toNat < 4096 := nnn.isLt
  apply BitVec.eq_of_toNat_eq; rw [fieldNnn_toNat, encodeA_toNat]; omega

@[simp] theorem fieldCategory_encodeXK : fieldCategory (encodeXK c x kk) = c.toFin := by
  have : kk.toNat < 256 := kk.isLt
  apply Fin.ext; rw [fieldCategory_val, encodeXK_toNat, BitVec.val_toFin c]
  have := x.isLt; generalize x.val = a at *; omega

@[simp] theorem fieldX_encodeXK : fieldX (encodeXK c x kk) = x := by
  have : kk.toNat < 256 := kk.isLt
  apply Fin.ext; rw [fieldX_val, encodeXK_toNat]
  have := x.isLt; generalize x.val = a at *; omega

@[simp] theorem fieldKk_encodeXK : fieldKk (encodeXK c x kk) = kk := by
  have : kk.toNat < 256 := kk.isLt
  apply BitVec.eq_of_toNat_eq; rw [fieldKk_toNat, encodeXK_toNat]
  generalize x.val = a; omega

@[simp] theorem fieldCategory_encodeXYN : fieldCategory (encodeXYN c x y n) = c.toFin := by
  have : n.toNat < 16 := n.isLt
  apply Fin.ext; rw [fieldCategory_val, encodeXYN_toNat, BitVec.val_toFin c]
  have := x.isLt; have := y.isLt; generalize x.val = a, y.val = b at *; omega

@[simp] theorem fieldX_encodeXYN : fieldX (encodeXYN c x y n) = x := by
  have : n.toNat < 16 := n.isLt
  apply Fin.ext; rw [fieldX_val, encodeXYN_toNat]
  have := x.isLt; have := y.isLt; generalize x.val = a, y.val = b at *; omega

@[simp] theorem fieldY_encodeXYN : fieldY (encodeXYN c x y n) = y := by
  have : n.toNat < 16 := n.isLt
  apply Fin.ext; rw [fieldY_val, encodeXYN_toNat]
  have := x.isLt; have := y.isLt; generalize x.val = a, y.val = b at *; omega

@[simp] theorem fieldN_encodeXYN : fieldN (encodeXYN c x y n) = n.toFin := by
  have : n.toNat < 16 := n.isLt
  apply Fin.ext; rw [fieldN_val, encodeXYN_toNat, BitVec.val_toFin n]
  have := x.isLt; have := y.isLt; generalize x.val = a, y.val = b at *; omega

end fields

/-! ### Masks (30_encoding.md R95) -/

/-- The mask of a row whose only fixed bits are the category. -/
theorem and_F000 (op : Word) : (op &&& 0xF000#16).toNat = (fieldCategory op).val * 4096 := by
  have h : op &&& 0xF000#16 = (op >>> 12) <<< 12 := by
    ext i hi
    have : ∀ i : Fin 16, (0xF000#16).getLsbD i.val = decide (12 ≤ i.val) := by decide
    have := this ⟨i, hi⟩
    simp only [BitVec.getElem_and, BitVec.getElem_shiftLeft, BitVec.getElem_ushiftRight]
    by_cases h12 : 12 ≤ i
    · have e : 12 + (i - 12) = i := by omega
      simp_all [BitVec.getLsbD_eq_getElem]
    · have e : i < 12 := by omega
      simp_all [BitVec.getLsbD_eq_getElem]
  have : op.toNat < 65536 := op.isLt
  rw [h, fieldCategory_val, BitVec.toNat_shiftLeft, BitVec.toNat_ushiftRight,
    Nat.shiftRight_eq_div_pow, Nat.shiftLeft_eq]
  omega

/-- A mask of the category and of low bits below it. -/
theorem and_category_or (op : Word) {low : Word} {k r : Nat} (hk : k ≤ 12)
    (h : (op &&& low).toNat = r) (hr : r < 2 ^ k) :
    (op &&& (0xF000#16 ||| low)).toNat = (fieldCategory op).val * 4096 + r := by
  have hr12 : r < 2 ^ 12 := Nat.lt_of_lt_of_le hr (Nat.pow_le_pow_right (by decide) hk)
  rw [BitVec.and_or_distrib_left, BitVec.toNat_or, and_F000, h,
    show (4096 : Nat) = 2 ^ 12 from rfl, ← Nat.shiftLeft_eq, Nat.shiftLeft_add_eq_or_of_lt hr12]

/-- The mask of format `XY`. -/
theorem and_F00F (op : Word) :
    (op &&& 0xF00F#16).toNat = (fieldCategory op).val * 4096 + op.toNat % 16 :=
  and_category_or (low := 0x000F#16) (k := 4) op (by decide)
    (by rw [BitVec.toNat_and]; exact Nat.and_two_pow_sub_one_eq_mod op.toNat 4) (by omega)

/-- The mask of format `XF`. -/
theorem and_F0FF (op : Word) :
    (op &&& 0xF0FF#16).toNat = (fieldCategory op).val * 4096 + op.toNat % 256 :=
  and_category_or (low := 0x00FF#16) (k := 8) op (by decide)
    (by rw [BitVec.toNat_and]; exact Nat.and_two_pow_sub_one_eq_mod op.toNat 8) (by omega)

/-! ### The table word -/

theorem decodeTableWord_eq (nbits w : Nat) :
    decodeTableWord nbits w =
      match decodeWord (tableWord nbits w) with
      | .ok i => some i
      | .error _ => none := by
  simp only [decodeTableWord, decode, wordOfBytes_bytes]
  cases decodeWord (tableWord nbits w) <;> rfl

end Sys2Proof
end

