-- ==== Sys2Proof/Laws/State.lean ====
section
/-! SUPPORT. One lemma per field per setter of `Ops.lean`, true by unfolding: a proof about a meaning
never unfolds a record update. The lemmas for one setter stand together. -/

namespace Sys2Proof.Machine

section setPc
variable (s : State) (w : Word)

@[simp] theorem setPc_v : (setPc s w).v = s.v := rfl
@[simp] theorem setPc_i : (setPc s w).i = s.i := rfl
@[simp] theorem setPc_pc : (setPc s w).pc = w := rfl
@[simp] theorem setPc_sp : (setPc s w).sp = s.sp := rfl
@[simp] theorem setPc_stack : (setPc s w).stack = s.stack := rfl
@[simp] theorem setPc_dt : (setPc s w).dt = s.dt := rfl
@[simp] theorem setPc_st : (setPc s w).st = s.st := rfl
@[simp] theorem setPc_key : (setPc s w).key = s.key := rfl
@[simp] theorem setPc_fb : (setPc s w).fb = s.fb := rfl
@[simp] theorem setPc_mem : (setPc s w).mem = s.mem := rfl
@[simp] theorem setPc_mode : (setPc s w).mode = s.mode := rfl
@[simp] theorem setPc_fault : (setPc s w).fault = s.fault := rfl
@[simp] theorem setPc_unk : (setPc s w).unk = s.unk := rfl
@[simp] theorem setPc_draws : (setPc s w).draws = s.draws := rfl

end setPc

section setI
variable (s : State) (w : Word)

@[simp] theorem setI_v : (setI s w).v = s.v := rfl
@[simp] theorem setI_i : (setI s w).i = w := rfl
@[simp] theorem setI_pc : (setI s w).pc = s.pc := rfl
@[simp] theorem setI_sp : (setI s w).sp = s.sp := rfl
@[simp] theorem setI_stack : (setI s w).stack = s.stack := rfl
@[simp] theorem setI_dt : (setI s w).dt = s.dt := rfl
@[simp] theorem setI_st : (setI s w).st = s.st := rfl
@[simp] theorem setI_key : (setI s w).key = s.key := rfl
@[simp] theorem setI_fb : (setI s w).fb = s.fb := rfl
@[simp] theorem setI_mem : (setI s w).mem = s.mem := rfl
@[simp] theorem setI_mode : (setI s w).mode = s.mode := rfl
@[simp] theorem setI_fault : (setI s w).fault = s.fault := rfl
@[simp] theorem setI_unk : (setI s w).unk = s.unk := rfl
@[simp] theorem setI_draws : (setI s w).draws = s.draws := rfl

end setI

section setSp
variable (s : State) (w : Byte)

@[simp] theorem setSp_v : (setSp s w).v = s.v := rfl
@[simp] theorem setSp_i : (setSp s w).i = s.i := rfl
@[simp] theorem setSp_pc : (setSp s w).pc = s.pc := rfl
@[simp] theorem setSp_sp : (setSp s w).sp = w := rfl
@[simp] theorem setSp_stack : (setSp s w).stack = s.stack := rfl
@[simp] theorem setSp_dt : (setSp s w).dt = s.dt := rfl
@[simp] theorem setSp_st : (setSp s w).st = s.st := rfl
@[simp] theorem setSp_key : (setSp s w).key = s.key := rfl
@[simp] theorem setSp_fb : (setSp s w).fb = s.fb := rfl
@[simp] theorem setSp_mem : (setSp s w).mem = s.mem := rfl
@[simp] theorem setSp_mode : (setSp s w).mode = s.mode := rfl
@[simp] theorem setSp_fault : (setSp s w).fault = s.fault := rfl
@[simp] theorem setSp_unk : (setSp s w).unk = s.unk := rfl
@[simp] theorem setSp_draws : (setSp s w).draws = s.draws := rfl

end setSp

section setDt
variable (s : State) (w : Byte)

@[simp] theorem setDt_v : (setDt s w).v = s.v := rfl
@[simp] theorem setDt_i : (setDt s w).i = s.i := rfl
@[simp] theorem setDt_pc : (setDt s w).pc = s.pc := rfl
@[simp] theorem setDt_sp : (setDt s w).sp = s.sp := rfl
@[simp] theorem setDt_stack : (setDt s w).stack = s.stack := rfl
@[simp] theorem setDt_dt : (setDt s w).dt = w := rfl
@[simp] theorem setDt_st : (setDt s w).st = s.st := rfl
@[simp] theorem setDt_key : (setDt s w).key = s.key := rfl
@[simp] theorem setDt_fb : (setDt s w).fb = s.fb := rfl
@[simp] theorem setDt_mem : (setDt s w).mem = s.mem := rfl
@[simp] theorem setDt_mode : (setDt s w).mode = s.mode := rfl
@[simp] theorem setDt_fault : (setDt s w).fault = s.fault := rfl
@[simp] theorem setDt_unk : (setDt s w).unk = s.unk := rfl
@[simp] theorem setDt_draws : (setDt s w).draws = s.draws := rfl

end setDt

section setSt
variable (s : State) (w : Byte)

@[simp] theorem setSt_v : (setSt s w).v = s.v := rfl
@[simp] theorem setSt_i : (setSt s w).i = s.i := rfl
@[simp] theorem setSt_pc : (setSt s w).pc = s.pc := rfl
@[simp] theorem setSt_sp : (setSt s w).sp = s.sp := rfl
@[simp] theorem setSt_stack : (setSt s w).stack = s.stack := rfl
@[simp] theorem setSt_dt : (setSt s w).dt = s.dt := rfl
@[simp] theorem setSt_st : (setSt s w).st = w := rfl
@[simp] theorem setSt_key : (setSt s w).key = s.key := rfl
@[simp] theorem setSt_fb : (setSt s w).fb = s.fb := rfl
@[simp] theorem setSt_mem : (setSt s w).mem = s.mem := rfl
@[simp] theorem setSt_mode : (setSt s w).mode = s.mode := rfl
@[simp] theorem setSt_fault : (setSt s w).fault = s.fault := rfl
@[simp] theorem setSt_unk : (setSt s w).unk = s.unk := rfl
@[simp] theorem setSt_draws : (setSt s w).draws = s.draws := rfl

end setSt

section setMode
variable (s : State) (w : Mode)

@[simp] theorem setMode_v : (setMode s w).v = s.v := rfl
@[simp] theorem setMode_i : (setMode s w).i = s.i := rfl
@[simp] theorem setMode_pc : (setMode s w).pc = s.pc := rfl
@[simp] theorem setMode_sp : (setMode s w).sp = s.sp := rfl
@[simp] theorem setMode_stack : (setMode s w).stack = s.stack := rfl
@[simp] theorem setMode_dt : (setMode s w).dt = s.dt := rfl
@[simp] theorem setMode_st : (setMode s w).st = s.st := rfl
@[simp] theorem setMode_key : (setMode s w).key = s.key := rfl
@[simp] theorem setMode_fb : (setMode s w).fb = s.fb := rfl
@[simp] theorem setMode_mem : (setMode s w).mem = s.mem := rfl
@[simp] theorem setMode_mode : (setMode s w).mode = w := rfl
@[simp] theorem setMode_fault : (setMode s w).fault = s.fault := rfl
@[simp] theorem setMode_unk : (setMode s w).unk = s.unk := rfl
@[simp] theorem setMode_draws : (setMode s w).draws = s.draws := rfl

end setMode

section setFault
variable (s : State) (w : FaultCode)

@[simp] theorem setFault_v : (setFault s w).v = s.v := rfl
@[simp] theorem setFault_i : (setFault s w).i = s.i := rfl
@[simp] theorem setFault_pc : (setFault s w).pc = s.pc := rfl
@[simp] theorem setFault_sp : (setFault s w).sp = s.sp := rfl
@[simp] theorem setFault_stack : (setFault s w).stack = s.stack := rfl
@[simp] theorem setFault_dt : (setFault s w).dt = s.dt := rfl
@[simp] theorem setFault_st : (setFault s w).st = s.st := rfl
@[simp] theorem setFault_key : (setFault s w).key = s.key := rfl
@[simp] theorem setFault_fb : (setFault s w).fb = s.fb := rfl
@[simp] theorem setFault_mem : (setFault s w).mem = s.mem := rfl
@[simp] theorem setFault_mode : (setFault s w).mode = s.mode := rfl
@[simp] theorem setFault_fault : (setFault s w).fault = w := rfl
@[simp] theorem setFault_unk : (setFault s w).unk = s.unk := rfl
@[simp] theorem setFault_draws : (setFault s w).draws = s.draws := rfl

end setFault

section setUnk
variable (s : State) (w : Bool)

@[simp] theorem setUnk_v : (setUnk s w).v = s.v := rfl
@[simp] theorem setUnk_i : (setUnk s w).i = s.i := rfl
@[simp] theorem setUnk_pc : (setUnk s w).pc = s.pc := rfl
@[simp] theorem setUnk_sp : (setUnk s w).sp = s.sp := rfl
@[simp] theorem setUnk_stack : (setUnk s w).stack = s.stack := rfl
@[simp] theorem setUnk_dt : (setUnk s w).dt = s.dt := rfl
@[simp] theorem setUnk_st : (setUnk s w).st = s.st := rfl
@[simp] theorem setUnk_key : (setUnk s w).key = s.key := rfl
@[simp] theorem setUnk_fb : (setUnk s w).fb = s.fb := rfl
@[simp] theorem setUnk_mem : (setUnk s w).mem = s.mem := rfl
@[simp] theorem setUnk_mode : (setUnk s w).mode = s.mode := rfl
@[simp] theorem setUnk_fault : (setUnk s w).fault = s.fault := rfl
@[simp] theorem setUnk_unk : (setUnk s w).unk = w := rfl
@[simp] theorem setUnk_draws : (setUnk s w).draws = s.draws := rfl

end setUnk

section setFb
variable (s : State) (w : FrameBuffer)

@[simp] theorem setFb_v : (setFb s w).v = s.v := rfl
@[simp] theorem setFb_i : (setFb s w).i = s.i := rfl
@[simp] theorem setFb_pc : (setFb s w).pc = s.pc := rfl
@[simp] theorem setFb_sp : (setFb s w).sp = s.sp := rfl
@[simp] theorem setFb_stack : (setFb s w).stack = s.stack := rfl
@[simp] theorem setFb_dt : (setFb s w).dt = s.dt := rfl
@[simp] theorem setFb_st : (setFb s w).st = s.st := rfl
@[simp] theorem setFb_key : (setFb s w).key = s.key := rfl
@[simp] theorem setFb_fb : (setFb s w).fb = w := rfl
@[simp] theorem setFb_mem : (setFb s w).mem = s.mem := rfl
@[simp] theorem setFb_mode : (setFb s w).mode = s.mode := rfl
@[simp] theorem setFb_fault : (setFb s w).fault = s.fault := rfl
@[simp] theorem setFb_unk : (setFb s w).unk = s.unk := rfl
@[simp] theorem setFb_draws : (setFb s w).draws = s.draws := rfl

end setFb

section setMem
variable (s : State) (w : Memory)

@[simp] theorem setMem_v : (setMem s w).v = s.v := rfl
@[simp] theorem setMem_i : (setMem s w).i = s.i := rfl
@[simp] theorem setMem_pc : (setMem s w).pc = s.pc := rfl
@[simp] theorem setMem_sp : (setMem s w).sp = s.sp := rfl
@[simp] theorem setMem_stack : (setMem s w).stack = s.stack := rfl
@[simp] theorem setMem_dt : (setMem s w).dt = s.dt := rfl
@[simp] theorem setMem_st : (setMem s w).st = s.st := rfl
@[simp] theorem setMem_key : (setMem s w).key = s.key := rfl
@[simp] theorem setMem_fb : (setMem s w).fb = s.fb := rfl
@[simp] theorem setMem_mem : (setMem s w).mem = w := rfl
@[simp] theorem setMem_mode : (setMem s w).mode = s.mode := rfl
@[simp] theorem setMem_fault : (setMem s w).fault = s.fault := rfl
@[simp] theorem setMem_unk : (setMem s w).unk = s.unk := rfl
@[simp] theorem setMem_draws : (setMem s w).draws = s.draws := rfl

end setMem

section setRegs
variable (s : State) (w : Vector Byte 16)

@[simp] theorem setRegs_v : (setRegs s w).v = w := rfl
@[simp] theorem setRegs_i : (setRegs s w).i = s.i := rfl
@[simp] theorem setRegs_pc : (setRegs s w).pc = s.pc := rfl
@[simp] theorem setRegs_sp : (setRegs s w).sp = s.sp := rfl
@[simp] theorem setRegs_stack : (setRegs s w).stack = s.stack := rfl
@[simp] theorem setRegs_dt : (setRegs s w).dt = s.dt := rfl
@[simp] theorem setRegs_st : (setRegs s w).st = s.st := rfl
@[simp] theorem setRegs_key : (setRegs s w).key = s.key := rfl
@[simp] theorem setRegs_fb : (setRegs s w).fb = s.fb := rfl
@[simp] theorem setRegs_mem : (setRegs s w).mem = s.mem := rfl
@[simp] theorem setRegs_mode : (setRegs s w).mode = s.mode := rfl
@[simp] theorem setRegs_fault : (setRegs s w).fault = s.fault := rfl
@[simp] theorem setRegs_unk : (setRegs s w).unk = s.unk := rfl
@[simp] theorem setRegs_draws : (setRegs s w).draws = s.draws := rfl

end setRegs

section setStack
variable (s : State) (w : Vector Word 16)

@[simp] theorem setStack_v : (setStack s w).v = s.v := rfl
@[simp] theorem setStack_i : (setStack s w).i = s.i := rfl
@[simp] theorem setStack_pc : (setStack s w).pc = s.pc := rfl
@[simp] theorem setStack_sp : (setStack s w).sp = s.sp := rfl
@[simp] theorem setStack_stack : (setStack s w).stack = w := rfl
@[simp] theorem setStack_dt : (setStack s w).dt = s.dt := rfl
@[simp] theorem setStack_st : (setStack s w).st = s.st := rfl
@[simp] theorem setStack_key : (setStack s w).key = s.key := rfl
@[simp] theorem setStack_fb : (setStack s w).fb = s.fb := rfl
@[simp] theorem setStack_mem : (setStack s w).mem = s.mem := rfl
@[simp] theorem setStack_mode : (setStack s w).mode = s.mode := rfl
@[simp] theorem setStack_fault : (setStack s w).fault = s.fault := rfl
@[simp] theorem setStack_unk : (setStack s w).unk = s.unk := rfl
@[simp] theorem setStack_draws : (setStack s w).draws = s.draws := rfl

end setStack

section setKeys
variable (s : State) (w : Vector Bool 16)

@[simp] theorem setKeys_v : (setKeys s w).v = s.v := rfl
@[simp] theorem setKeys_i : (setKeys s w).i = s.i := rfl
@[simp] theorem setKeys_pc : (setKeys s w).pc = s.pc := rfl
@[simp] theorem setKeys_sp : (setKeys s w).sp = s.sp := rfl
@[simp] theorem setKeys_stack : (setKeys s w).stack = s.stack := rfl
@[simp] theorem setKeys_dt : (setKeys s w).dt = s.dt := rfl
@[simp] theorem setKeys_st : (setKeys s w).st = s.st := rfl
@[simp] theorem setKeys_key : (setKeys s w).key = w := rfl
@[simp] theorem setKeys_fb : (setKeys s w).fb = s.fb := rfl
@[simp] theorem setKeys_mem : (setKeys s w).mem = s.mem := rfl
@[simp] theorem setKeys_mode : (setKeys s w).mode = s.mode := rfl
@[simp] theorem setKeys_fault : (setKeys s w).fault = s.fault := rfl
@[simp] theorem setKeys_unk : (setKeys s w).unk = s.unk := rfl
@[simp] theorem setKeys_draws : (setKeys s w).draws = s.draws := rfl

end setKeys

section setDraws
variable (s : State) (w : Nat)

@[simp] theorem setDraws_v : (setDraws s w).v = s.v := rfl
@[simp] theorem setDraws_i : (setDraws s w).i = s.i := rfl
@[simp] theorem setDraws_pc : (setDraws s w).pc = s.pc := rfl
@[simp] theorem setDraws_sp : (setDraws s w).sp = s.sp := rfl
@[simp] theorem setDraws_stack : (setDraws s w).stack = s.stack := rfl
@[simp] theorem setDraws_dt : (setDraws s w).dt = s.dt := rfl
@[simp] theorem setDraws_st : (setDraws s w).st = s.st := rfl
@[simp] theorem setDraws_key : (setDraws s w).key = s.key := rfl
@[simp] theorem setDraws_fb : (setDraws s w).fb = s.fb := rfl
@[simp] theorem setDraws_mem : (setDraws s w).mem = s.mem := rfl
@[simp] theorem setDraws_mode : (setDraws s w).mode = s.mode := rfl
@[simp] theorem setDraws_fault : (setDraws s w).fault = s.fault := rfl
@[simp] theorem setDraws_unk : (setDraws s w).unk = s.unk := rfl
@[simp] theorem setDraws_draws : (setDraws s w).draws = w := rfl

end setDraws

end Sys2Proof.Machine
end

