-- ==== Sys2Proof/Laws/Memory.lean ====
section
/-! SUPPORT. The laws of memory: a read after a write, the canonical form kept by every memory
operation, and equal reads meaning equal data. -/

namespace Sys2Proof.Machine

/-! ### Reads -/

theorem Memory.read_cons (k : Nat) (c : Byte) (m : Memory) (a : Nat) :
    Memory.read ((k, c) :: m) a = if a = k then c else Memory.read m a := rfl

theorem Memory.read_erase (m : Memory) (a x : Nat) :
    Memory.read (Memory.erase m a) x = if x = a then Memory.unlisted a else Memory.read m x := by
  induction m with
  | nil => by_cases h : x = a <;> simp [Memory.erase, Memory.read, h]
  | cons c m ih =>
    obtain ⟨k, b⟩ := c
    by_cases hk : k = a
    · subst hk
      have : Memory.erase ((k, b) :: m) k = Memory.erase m k := by simp [Memory.erase]
      rw [this, ih, Memory.read_cons]
      by_cases h : x = k <;> simp [h]
    · have : Memory.erase ((k, b) :: m) a = (k, b) :: Memory.erase m a := by
        simp [Memory.erase, hk]
      rw [this, Memory.read_cons, ih, Memory.read_cons]
      by_cases h : x = k
      · subst h; simp [hk]
      · simp [h]

theorem Memory.read_insert {m : Memory} {a : Nat} (h : ∀ c ∈ m, c.1 ≠ a) (b : Byte) (x : Nat) :
    Memory.read (Memory.insert m a b) x = if x = a then b else Memory.read m x := by
  induction m with
  | nil => simp [Memory.insert, Memory.read]
  | cons c m ih =>
    obtain ⟨k, d⟩ := c
    have hk : k ≠ a := h (k, d) (by simp)
    have ih := ih fun c hc => h c (by simp [hc])
    rw [Memory.insert]
    split
    · rfl
    · rw [Memory.read_cons, Memory.read_cons, ih]
      by_cases hx : x = k
      · subst hx; simp [hk]
      · simp [hx]

theorem Memory.erase_ne (m : Memory) (a : Nat) : ∀ c ∈ Memory.erase m a, c.1 ≠ a := by
  intro c hc
  simpa [Memory.erase] using (List.mem_filter.mp hc).2

/-- Read after write, of one byte, in any memory. -/
theorem Memory.read_write (m : Memory) (a : Nat) (b : Byte) (x : Nat) :
    Memory.read (Memory.write m a b) x = if x = a then b else Memory.read m x := by
  unfold Memory.write
  split
  · rename_i h; rw [Memory.read_erase, h]
  · rw [Memory.read_insert (Memory.erase_ne m a), Memory.read_erase]
    by_cases h : x = a <;> simp [h]

/-- Read after a write of consecutive bytes: the stored byte inside, the old byte outside. -/
theorem Memory.read_writeBytes (m : Memory) (a : Nat) (bs : List Byte) (x : Nat) :
    Memory.read (Memory.writeBytes m a bs) x =
      if a ≤ x then (bs[x - a]?).getD (Memory.read m x) else Memory.read m x := by
  induction bs generalizing m a with
  | nil => simp [Memory.writeBytes]
  | cons b bs ih =>
    rw [Memory.writeBytes, ih, Memory.read_write]
    by_cases h : x = a
    · subst h; simp
    · by_cases h1 : a + 1 ≤ x
      · have : x - a = x - (a + 1) + 1 := by omega
        have h2 : a ≤ x := by omega
        simp [h, h1, this, h2]
      · have : ¬ a ≤ x := by omega
        simp [h, h1, this]

theorem readMem_writeBytes (s : State) (a : Nat) (bs : List Byte) (x : Nat) :
    readMem (writeBytes s a bs) x =
      if a ≤ x then (bs[x - a]?).getD (readMem s x) else readMem s x :=
  Memory.read_writeBytes s.mem a bs x

/-- A store of bytes leaves every byte outside it alone. -/
theorem readMem_writeBytes_outside (s : State) (a : Nat) (bs : List Byte) {x : Nat}
    (h : x < a ∨ a + bs.length ≤ x) : readMem (writeBytes s a bs) x = readMem s x := by
  rw [readMem_writeBytes]
  split
  · rw [List.getElem?_eq_none (by omega)]; rfl
  · rfl

/-- The bytes stored are the bytes read back. -/
theorem readMem_writeBytes_inside (s : State) (a : Nat) (bs : List Byte) {k : Nat} {b : Byte}
    (h : bs[k]? = some b) : readMem (writeBytes s a bs) (a + k) = b := by
  rw [readMem_writeBytes]; simp [h]

/-! ### The canonical form -/

theorem Memory.wf_cons {k : Nat} {b : Byte} {m : Memory} :
    Memory.wf ((k, b) :: m) = true ↔
      k < 4096 ∧ b ≠ Memory.unlisted k ∧ (∀ c ∈ m, k < c.1) ∧ Memory.wf m = true := by
  simp only [Memory.wf, Bool.and_eq_true, decide_eq_true_eq, bne_iff_ne, List.all_eq_true, and_assoc]
  rfl

theorem Memory.wf_erase {m : Memory} (h : Memory.wf m = true) (a : Nat) :
    Memory.wf (Memory.erase m a) = true := by
  induction m with
  | nil => rfl
  | cons c m ih =>
    obtain ⟨k, b⟩ := c
    obtain ⟨h1, h2, h3, h4⟩ := Memory.wf_cons.mp h
    by_cases hk : k = a
    · have : Memory.erase ((k, b) :: m) a = Memory.erase m a := by simp [Memory.erase, hk]
      rw [this]; exact ih h4
    · have : Memory.erase ((k, b) :: m) a = (k, b) :: Memory.erase m a := by
        simp [Memory.erase, hk]
      rw [this]
      exact Memory.wf_cons.mpr ⟨h1, h2, fun c hc => h3 c (List.mem_filter.mp hc).1, ih h4⟩

theorem Memory.mem_insert {m : Memory} {a : Nat} {b : Byte} {c : Host.Cell} :
    c ∈ Memory.insert m a b ↔ c = (a, b) ∨ c ∈ m := by
  induction m with
  | nil => simp [Memory.insert]
  | cons d m ih =>
    obtain ⟨k, e⟩ := d
    rw [Memory.insert]
    split
    · simp
    · simp only [List.mem_cons, ih]; tauto

theorem Memory.wf_insert {m : Memory} (h : Memory.wf m = true) {a : Nat} {b : Byte}
    (ha : a < 4096) (hb : b ≠ Memory.unlisted a) (hne : ∀ c ∈ m, c.1 ≠ a) :
    Memory.wf (Memory.insert m a b) = true := by
  induction m with
  | nil => exact Memory.wf_cons.mpr ⟨ha, hb, by simp, rfl⟩
  | cons c m ih =>
    obtain ⟨k, d⟩ := c
    obtain ⟨h1, h2, h3, h4⟩ := Memory.wf_cons.mp h
    have hk : k ≠ a := hne (k, d) (by simp)
    rw [Memory.insert]
    split
    · rename_i hlt
      refine Memory.wf_cons.mpr ⟨ha, hb, ?_, h⟩
      intro c hc
      rcases List.mem_cons.mp hc with rfl | hc
      · exact hlt
      · exact Nat.lt_trans hlt (h3 c hc)
    · refine Memory.wf_cons.mpr ⟨h1, h2, ?_, ih h4 fun c hc => hne c (by simp [hc])⟩
      intro c hc
      rcases Memory.mem_insert.mp hc with rfl | hc
      · show k < a; omega
      · exact h3 c hc

/-- A write inside memory keeps the canonical form. -/
theorem Memory.wf_write {m : Memory} (h : Memory.wf m = true) {a : Nat} (ha : a < 4096) (b : Byte) :
    Memory.wf (Memory.write m a b) = true := by
  unfold Memory.write
  split
  · exact Memory.wf_erase h a
  · rename_i hb
    exact Memory.wf_insert (Memory.wf_erase h a) ha hb (Memory.erase_ne m a)

/-- A write of bytes inside memory keeps the canonical form. -/
theorem Memory.wf_writeBytes {m : Memory} (h : Memory.wf m = true) {a : Nat} {bs : List Byte}
    (ha : a + bs.length ≤ 4096) : Memory.wf (Memory.writeBytes m a bs) = true := by
  induction bs generalizing m a with
  | nil => exact h
  | cons b bs ih =>
    simp only [List.length_cons] at ha
    exact ih (Memory.wf_write h (by omega) b) (by omega)

theorem wf_writeBytes {s : State} (h : Memory.wf s.mem = true) {a : Nat} {bs : List Byte}
    (ha : a + bs.length ≤ 4096) : Memory.wf (writeBytes s a bs).mem = true :=
  Memory.wf_writeBytes h ha

/-- Above the font an unlisted address reads as 0. -/
theorem Memory.unlisted_of_ge {a : Nat} (h : 80 ≤ a) : Memory.unlisted a = 0 := by
  have : Config.defaultFont[a]? = none := Vector.getElem?_eq_none h
  rw [Memory.unlisted, this]; rfl

/-- Below every listed address a memory reads as unlisted. -/
theorem Memory.read_of_lt {m : Memory} {a : Nat} (h : ∀ c ∈ m, a < c.1) :
    Memory.read m a = Memory.unlisted a := by
  induction m with
  | nil => rfl
  | cons c m ih =>
    obtain ⟨k, b⟩ := c
    have hk : a < k := h (k, b) (by simp)
    rw [Memory.read_cons, if_neg (by omega)]
    exact ih fun c hc => h c (by simp [hc])

/-- Equal memories are equal data: two memories in the canonical form that read alike are one list. -/
theorem Memory.eq_of_read_eq {m n : Memory} (hm : Memory.wf m = true) (hn : Memory.wf n = true)
    (h : ∀ a, Memory.read m a = Memory.read n a) : m = n := by
  induction m generalizing n with
  | nil =>
    cases n with
    | nil => rfl
    | cons d n =>
      obtain ⟨k, b⟩ := d
      obtain ⟨_, h2, _, _⟩ := Memory.wf_cons.mp hn
      have := h k
      rw [Memory.read_cons, if_pos rfl] at this
      exact absurd this.symm h2
  | cons c m ih =>
    obtain ⟨k, b⟩ := c
    obtain ⟨_, h2, h3, h4⟩ := Memory.wf_cons.mp hm
    cases n with
    | nil =>
      have := h k
      rw [Memory.read_cons, if_pos rfl] at this
      exact absurd this h2
    | cons d n =>
      obtain ⟨j, e⟩ := d
      obtain ⟨_, g2, g3, g4⟩ := Memory.wf_cons.mp hn
      have hkj : k = j := by
        rcases Nat.lt_trichotomy k j with hlt | heq | hgt
        · have := h k
          rw [Memory.read_cons, if_pos rfl,
            Memory.read_of_lt (m := (j, e) :: n) (by
              intro c hc
              rcases List.mem_cons.mp hc with rfl | hc
              · exact hlt
              · exact Nat.lt_trans hlt (g3 c hc))] at this
          exact absurd this h2
        · exact heq
        · have := h j
          rw [Memory.read_cons j, if_pos rfl,
            Memory.read_of_lt (m := (k, b) :: m) (by
              intro c hc
              rcases List.mem_cons.mp hc with rfl | hc
              · exact hgt
              · exact Nat.lt_trans hgt (h3 c hc))] at this
          exact absurd this.symm g2
      subst hkj
      have hbe : b = e := by simpa [Memory.read_cons] using h k
      subst hbe
      congr 1
      refine ih h4 g4 fun a => ?_
      by_cases ha : a = k
      · subst ha; rw [Memory.read_of_lt h3, Memory.read_of_lt g3]
      · simpa [Memory.read_cons, ha] using h a

end Sys2Proof.Machine
end

