-- ==== Sys2Proof/Laws/Ops.lean ====
section
/-! SUPPORT. The reads of one part are untouched by the setters of the others; the laws of the shared
operations of `Ops.lean`: registers, stack, keys, fetch, fault. -/

namespace Sys2Proof.Machine

/-! `readV` after the setter of another part. -/

@[simp] theorem readV_setPc (s : State) (w : Word) (x : RegIdx) :
    readV (setPc s w) x = readV s x := rfl
@[simp] theorem readV_setI (s : State) (w : Word) (x : RegIdx) :
    readV (setI s w) x = readV s x := rfl
@[simp] theorem readV_setSp (s : State) (w : Byte) (x : RegIdx) :
    readV (setSp s w) x = readV s x := rfl
@[simp] theorem readV_setDt (s : State) (w : Byte) (x : RegIdx) :
    readV (setDt s w) x = readV s x := rfl
@[simp] theorem readV_setSt (s : State) (w : Byte) (x : RegIdx) :
    readV (setSt s w) x = readV s x := rfl
@[simp] theorem readV_setMode (s : State) (w : Mode) (x : RegIdx) :
    readV (setMode s w) x = readV s x := rfl
@[simp] theorem readV_setFault (s : State) (w : FaultCode) (x : RegIdx) :
    readV (setFault s w) x = readV s x := rfl
@[simp] theorem readV_setUnk (s : State) (w : Bool) (x : RegIdx) :
    readV (setUnk s w) x = readV s x := rfl
@[simp] theorem readV_setFb (s : State) (w : FrameBuffer) (x : RegIdx) :
    readV (setFb s w) x = readV s x := rfl
@[simp] theorem readV_setMem (s : State) (w : Memory) (x : RegIdx) :
    readV (setMem s w) x = readV s x := rfl
@[simp] theorem readV_setStack (s : State) (w : Vector Word 16) (x : RegIdx) :
    readV (setStack s w) x = readV s x := rfl
@[simp] theorem readV_setKeys (s : State) (w : Vector Bool 16) (x : RegIdx) :
    readV (setKeys s w) x = readV s x := rfl
@[simp] theorem readV_setDraws (s : State) (w : Nat) (x : RegIdx) :
    readV (setDraws s w) x = readV s x := rfl

/-! `readMem` after the setter of another part. -/

@[simp] theorem readMem_setPc (s : State) (w : Word) (a : Nat) :
    readMem (setPc s w) a = readMem s a := rfl
@[simp] theorem readMem_setI (s : State) (w : Word) (a : Nat) :
    readMem (setI s w) a = readMem s a := rfl
@[simp] theorem readMem_setSp (s : State) (w : Byte) (a : Nat) :
    readMem (setSp s w) a = readMem s a := rfl
@[simp] theorem readMem_setDt (s : State) (w : Byte) (a : Nat) :
    readMem (setDt s w) a = readMem s a := rfl
@[simp] theorem readMem_setSt (s : State) (w : Byte) (a : Nat) :
    readMem (setSt s w) a = readMem s a := rfl
@[simp] theorem readMem_setMode (s : State) (w : Mode) (a : Nat) :
    readMem (setMode s w) a = readMem s a := rfl
@[simp] theorem readMem_setFault (s : State) (w : FaultCode) (a : Nat) :
    readMem (setFault s w) a = readMem s a := rfl
@[simp] theorem readMem_setUnk (s : State) (w : Bool) (a : Nat) :
    readMem (setUnk s w) a = readMem s a := rfl
@[simp] theorem readMem_setFb (s : State) (w : FrameBuffer) (a : Nat) :
    readMem (setFb s w) a = readMem s a := rfl
@[simp] theorem readMem_setRegs (s : State) (w : Vector Byte 16) (a : Nat) :
    readMem (setRegs s w) a = readMem s a := rfl
@[simp] theorem readMem_setStack (s : State) (w : Vector Word 16) (a : Nat) :
    readMem (setStack s w) a = readMem s a := rfl
@[simp] theorem readMem_setKeys (s : State) (w : Vector Bool 16) (a : Nat) :
    readMem (setKeys s w) a = readMem s a := rfl
@[simp] theorem readMem_setDraws (s : State) (w : Nat) (a : Nat) :
    readMem (setDraws s w) a = readMem s a := rfl

/-! `stackEntry` after the setter of another part. -/

@[simp] theorem stackEntry_setPc (s : State) (w : Word) (j : Nat) :
    stackEntry (setPc s w) j = stackEntry s j := rfl
@[simp] theorem stackEntry_setI (s : State) (w : Word) (j : Nat) :
    stackEntry (setI s w) j = stackEntry s j := rfl
@[simp] theorem stackEntry_setSp (s : State) (w : Byte) (j : Nat) :
    stackEntry (setSp s w) j = stackEntry s j := rfl
@[simp] theorem stackEntry_setDt (s : State) (w : Byte) (j : Nat) :
    stackEntry (setDt s w) j = stackEntry s j := rfl
@[simp] theorem stackEntry_setSt (s : State) (w : Byte) (j : Nat) :
    stackEntry (setSt s w) j = stackEntry s j := rfl
@[simp] theorem stackEntry_setMode (s : State) (w : Mode) (j : Nat) :
    stackEntry (setMode s w) j = stackEntry s j := rfl
@[simp] theorem stackEntry_setFault (s : State) (w : FaultCode) (j : Nat) :
    stackEntry (setFault s w) j = stackEntry s j := rfl
@[simp] theorem stackEntry_setUnk (s : State) (w : Bool) (j : Nat) :
    stackEntry (setUnk s w) j = stackEntry s j := rfl
@[simp] theorem stackEntry_setFb (s : State) (w : FrameBuffer) (j : Nat) :
    stackEntry (setFb s w) j = stackEntry s j := rfl
@[simp] theorem stackEntry_setMem (s : State) (w : Memory) (j : Nat) :
    stackEntry (setMem s w) j = stackEntry s j := rfl
@[simp] theorem stackEntry_setRegs (s : State) (w : Vector Byte 16) (j : Nat) :
    stackEntry (setRegs s w) j = stackEntry s j := rfl
@[simp] theorem stackEntry_setKeys (s : State) (w : Vector Bool 16) (j : Nat) :
    stackEntry (setKeys s w) j = stackEntry s j := rfl
@[simp] theorem stackEntry_setDraws (s : State) (w : Nat) (j : Nat) :
    stackEntry (setDraws s w) j = stackEntry s j := rfl

/-! `pixel` after the setter of another part. -/

@[simp] theorem pixel_setPc (s : State) (w : Word) (p : Cell) :
    pixel (setPc s w) p = pixel s p := rfl
@[simp] theorem pixel_setI (s : State) (w : Word) (p : Cell) :
    pixel (setI s w) p = pixel s p := rfl
@[simp] theorem pixel_setSp (s : State) (w : Byte) (p : Cell) :
    pixel (setSp s w) p = pixel s p := rfl
@[simp] theorem pixel_setDt (s : State) (w : Byte) (p : Cell) :
    pixel (setDt s w) p = pixel s p := rfl
@[simp] theorem pixel_setSt (s : State) (w : Byte) (p : Cell) :
    pixel (setSt s w) p = pixel s p := rfl
@[simp] theorem pixel_setMode (s : State) (w : Mode) (p : Cell) :
    pixel (setMode s w) p = pixel s p := rfl
@[simp] theorem pixel_setFault (s : State) (w : FaultCode) (p : Cell) :
    pixel (setFault s w) p = pixel s p := rfl
@[simp] theorem pixel_setUnk (s : State) (w : Bool) (p : Cell) :
    pixel (setUnk s w) p = pixel s p := rfl
@[simp] theorem pixel_setMem (s : State) (w : Memory) (p : Cell) :
    pixel (setMem s w) p = pixel s p := rfl
@[simp] theorem pixel_setRegs (s : State) (w : Vector Byte 16) (p : Cell) :
    pixel (setRegs s w) p = pixel s p := rfl
@[simp] theorem pixel_setStack (s : State) (w : Vector Word 16) (p : Cell) :
    pixel (setStack s w) p = pixel s p := rfl
@[simp] theorem pixel_setKeys (s : State) (w : Vector Bool 16) (p : Cell) :
    pixel (setKeys s w) p = pixel s p := rfl
@[simp] theorem pixel_setDraws (s : State) (w : Nat) (p : Cell) :
    pixel (setDraws s w) p = pixel s p := rfl

/-! `keyDown` after the setter of another part. -/

@[simp] theorem keyDown_setPc (s : State) (w : Word) (k : Fin 16) :
    keyDown (setPc s w) k = keyDown s k := rfl
@[simp] theorem keyDown_setI (s : State) (w : Word) (k : Fin 16) :
    keyDown (setI s w) k = keyDown s k := rfl
@[simp] theorem keyDown_setSp (s : State) (w : Byte) (k : Fin 16) :
    keyDown (setSp s w) k = keyDown s k := rfl
@[simp] theorem keyDown_setDt (s : State) (w : Byte) (k : Fin 16) :
    keyDown (setDt s w) k = keyDown s k := rfl
@[simp] theorem keyDown_setSt (s : State) (w : Byte) (k : Fin 16) :
    keyDown (setSt s w) k = keyDown s k := rfl
@[simp] theorem keyDown_setMode (s : State) (w : Mode) (k : Fin 16) :
    keyDown (setMode s w) k = keyDown s k := rfl
@[simp] theorem keyDown_setFault (s : State) (w : FaultCode) (k : Fin 16) :
    keyDown (setFault s w) k = keyDown s k := rfl
@[simp] theorem keyDown_setUnk (s : State) (w : Bool) (k : Fin 16) :
    keyDown (setUnk s w) k = keyDown s k := rfl
@[simp] theorem keyDown_setFb (s : State) (w : FrameBuffer) (k : Fin 16) :
    keyDown (setFb s w) k = keyDown s k := rfl
@[simp] theorem keyDown_setMem (s : State) (w : Memory) (k : Fin 16) :
    keyDown (setMem s w) k = keyDown s k := rfl
@[simp] theorem keyDown_setRegs (s : State) (w : Vector Byte 16) (k : Fin 16) :
    keyDown (setRegs s w) k = keyDown s k := rfl
@[simp] theorem keyDown_setStack (s : State) (w : Vector Word 16) (k : Fin 16) :
    keyDown (setStack s w) k = keyDown s k := rfl
@[simp] theorem keyDown_setDraws (s : State) (w : Nat) (k : Fin 16) :
    keyDown (setDraws s w) k = keyDown s k := rfl

/-! ### Registers -/

/-- Read after write of a general register. -/
theorem readV_writeV (s : State) (x j : RegIdx) (b : Byte) :
    readV (writeV s x b) j = if j = x then b else readV s j := by
  simp only [readV, writeV, setRegs_v, Vector.getElem_set]
  by_cases h : j = x
  · simp [h]
  · have : x.val ≠ j.val := fun e => h (Fin.ext e.symm)
    simp [h, this]

@[simp] theorem readV_writeV_same (s : State) (x : RegIdx) (b : Byte) : readV (writeV s x b) x = b := by
  rw [readV_writeV, if_pos rfl]

theorem readV_writeV_of_ne (s : State) {x j : RegIdx} (h : j ≠ x) (b : Byte) :
    readV (writeV s x b) j = readV s j := by
  rw [readV_writeV, if_neg h]

/-- What the shared write-back of the flag-writing instructions leaves in each register. -/
theorem readV_writeResultFlag (s : State) (x j : RegIdx) (r : Byte) (f : Bool) :
    readV (writeResultFlag s x r f) j =
      if j = vf then (if f then 1 else 0) else if j = x then r else readV s j := by
  simp only [writeResultFlag, advance, readV_setPc, writeFlag, readV_writeV]

/-! ### The program counter -/

@[simp] theorem advance_pc (s : State) : (advance s).pc = s.pc + 2 := rfl

/-- `npc` as a number, where it does not wrap. -/
theorem npc_toNat {s : State} (h : s.pc.toNat ≤ 0xFFFD) : (npc s).toNat = s.pc.toNat + 2 := by
  simp only [npc, BitVec.toNat_add, BitVec.reduceToNat]; omega

/-- The two ways a skip ends. -/
theorem skipIf_pc (c : Bool) (s : State) :
    (skipIf c s).pc = if c then s.pc + 4 else s.pc + 2 := by
  cases c
  · rfl
  · simp only [skipIf, if_true, setPc_pc, npc, BitVec.add_assoc]; rfl

/-! ### Fetch and fault -/

theorem fetchable_iff {s : State} : fetchable s = true ↔ s.pc.toNat ≤ 0xFFE := by
  unfold fetchable
  rw [decide_eq_true_eq]
  show s.pc.toNat + 1 < 4096 ↔ _
  omega

theorem halted_iff {s : State} : halted s = true ↔ s.fault ≠ .noFault := by
  simp [halted]

theorem not_halted_iff {s : State} : halted s = false ↔ s.fault = .noFault := by
  simp [halted]

/-- A data access is in range exactly when its highest address is at most 0xFFF. -/
theorem dataInRange_iff {s : State} {len : Nat} :
    dataInRange s len = true ↔ len = 0 ∨ dataBase s + len - 1 ≤ 0xFFF := by
  unfold dataInRange
  rw [Bool.or_eq_true, beq_iff_eq, decide_eq_true_eq]
  show len = 0 ∨ dataBase s + (len - 1) < 4096 ↔ _
  omega

theorem raise_eq_next {c : FaultCode} {s t : State} : raise c s = .next t ↔ t = setFault s c := by
  simp [raise, eq_comm]

/-! ### The return stack -/

/-- `CALL`'s push, where there is room: the entry `SP` holds the address, the others are kept. -/
theorem pushReturn_of_lt {s : State} (h : s.sp.toNat < 16) (a : Word) :
    pushReturn s a = some (setSp (setStack s (s.stack.set s.sp.toNat a h)) (s.sp + 1)) := by
  simp [pushReturn, h]

theorem pushReturn_of_ge {s : State} (h : 16 ≤ s.sp.toNat) (a : Word) : pushReturn s a = none := by
  simp [pushReturn, Nat.not_lt.mpr h]

theorem stackEntry_set (s : State) {k : Nat} (h : k < 16) (a : Word) (j : Nat) :
    stackEntry (setStack s (s.stack.set k a h)) j = if j = k then some a else stackEntry s j := by
  simp only [stackEntry, setStack_stack, Vector.getElem?_set]
  by_cases e : k = j
  · subst e; simp
  · simp [e, Ne.symm e]

theorem stackEntry_of_lt (s : State) {j : Nat} (h : j < 16) : stackEntry s j = some s.stack[j] := by
  simp [stackEntry, h]

theorem stackEntry_of_ge (s : State) {j : Nat} (h : 16 ≤ j) : stackEntry s j = none := by
  simp [stackEntry, h]

/-- `RET`'s pop, where there is an entry. -/
theorem popReturn_of_entry {s : State} {a : Word} (h : stackEntry s (s.sp.toNat - 1) = some a) :
    popReturn s = some (a, setSp s (s.sp - 1)) := by
  simp [popReturn, h]

theorem popReturn_of_none {s : State} (h : stackEntry s (s.sp.toNat - 1) = none) :
    popReturn s = none := by
  simp [popReturn, h]

/-! ### Keys -/

theorem leastKey_eq_none {s : State} : leastKey s = none ↔ ∀ k, keyDown s k = false := by
  simp [leastKey]

/-- The key found is down, and no lower key is. -/
theorem leastKey_eq_some {s : State} {k : Fin 16} :
    leastKey s = some k ↔ keyDown s k = true ∧ ∀ j, j < k → keyDown s j = false := by
  have key : ∀ (p : Fin 16 → Bool), (List.finRange 16).find? p = some k ↔
      p k = true ∧ ∀ j, j < k → p j = false := by
    intro p
    rw [List.find?_eq_some_iff_getElem]
    constructor
    · rintro ⟨hp, i, hi, hk, hlt⟩
      refine ⟨hp, fun j hj => ?_⟩
      have hik : i = k.val := by simpa [Fin.ext_iff] using hk
      have := hlt j.val (by rw [hik]; exact hj)
      simpa using this
    · rintro ⟨hp, hlt⟩
      refine ⟨hp, k.val, by simp, by simp, fun j hj => ?_⟩
      simpa using hlt ⟨j, by omega⟩ hj
  exact key (keyDown s)

end Sys2Proof.Machine
end

