-- ==== Sys2Proof/Laws/Frame.lean ====
section
/-! SUPPORT. Frames: how `OnlyChanges` composes, and the frame of every shared operation. A proof of a
frame cites these and never unfolds a state. -/

namespace Sys2Proof.Machine

theorem OnlyChanges.refl (s : State) : OnlyChanges [] s s := by
  intro p _; cases p <;> first | exact fun _ => rfl | rfl

theorem Part.same.trans {p : Part} {s t u : State} (h : Part.same s t p) (g : Part.same t u p) :
    Part.same s u p := by
  cases p <;> first | exact Eq.trans g h | exact fun x => (g x).trans (h x)

/-- Changes in turn change at most the parts of both. -/
theorem OnlyChanges.trans {ps qs : List Part} {s t u : State} (h : OnlyChanges ps s t)
    (g : OnlyChanges qs t u) : OnlyChanges (ps ++ qs) s u := fun p hp =>
  (h p fun hm => hp (by simp [hm])).trans (g p fun hm => hp (by simp [hm]))

theorem OnlyChanges.mono {ps qs : List Part} {s t : State} (h : OnlyChanges ps s t)
    (hs : ps ⊆ qs) : OnlyChanges qs s t := fun p hp => h p fun hm => hp (hs hm)

theorem onlyChanges_setPc (s : State) (w : Word) : OnlyChanges [.pc] s (setPc s w) := by
  intro p hp; cases p <;> first | exact fun _ => rfl | rfl | exact absurd (List.mem_singleton.mpr rfl) hp

theorem onlyChanges_setI (s : State) (w : Word) : OnlyChanges [.i] s (setI s w) := by
  intro p hp; cases p <;> first | exact fun _ => rfl | rfl | exact absurd (List.mem_singleton.mpr rfl) hp

theorem onlyChanges_setSp (s : State) (w : Byte) : OnlyChanges [.sp] s (setSp s w) := by
  intro p hp; cases p <;> first | exact fun _ => rfl | rfl | exact absurd (List.mem_singleton.mpr rfl) hp

theorem onlyChanges_setDt (s : State) (w : Byte) : OnlyChanges [.dt] s (setDt s w) := by
  intro p hp; cases p <;> first | exact fun _ => rfl | rfl | exact absurd (List.mem_singleton.mpr rfl) hp

theorem onlyChanges_setSt (s : State) (w : Byte) : OnlyChanges [.st] s (setSt s w) := by
  intro p hp; cases p <;> first | exact fun _ => rfl | rfl | exact absurd (List.mem_singleton.mpr rfl) hp

theorem onlyChanges_setMode (s : State) (w : Mode) : OnlyChanges [.mode] s (setMode s w) := by
  intro p hp; cases p <;> first | exact fun _ => rfl | rfl | exact absurd (List.mem_singleton.mpr rfl) hp

theorem onlyChanges_setFault (s : State) (w : FaultCode) : OnlyChanges [.fault] s (setFault s w) := by
  intro p hp; cases p <;> first | exact fun _ => rfl | rfl | exact absurd (List.mem_singleton.mpr rfl) hp

theorem onlyChanges_setUnk (s : State) (w : Bool) : OnlyChanges [.unk] s (setUnk s w) := by
  intro p hp; cases p <;> first | exact fun _ => rfl | rfl | exact absurd (List.mem_singleton.mpr rfl) hp

theorem onlyChanges_setFb (s : State) (w : FrameBuffer) : OnlyChanges [.fb] s (setFb s w) := by
  intro p hp; cases p <;> first | exact fun _ => rfl | rfl | exact absurd (List.mem_singleton.mpr rfl) hp

theorem onlyChanges_setMem (s : State) (w : Memory) : OnlyChanges [.mem] s (setMem s w) := by
  intro p hp; cases p <;> first | exact fun _ => rfl | rfl | exact absurd (List.mem_singleton.mpr rfl) hp

theorem onlyChanges_setRegs (s : State) (w : Vector Byte 16) : OnlyChanges [.v] s (setRegs s w) := by
  intro p hp; cases p <;> first | exact fun _ => rfl | rfl | exact absurd (List.mem_singleton.mpr rfl) hp

theorem onlyChanges_setStack (s : State) (w : Vector Word 16) : OnlyChanges [.stack] s (setStack s w) := by
  intro p hp; cases p <;> first | exact fun _ => rfl | rfl | exact absurd (List.mem_singleton.mpr rfl) hp

theorem onlyChanges_setKeys (s : State) (w : Vector Bool 16) : OnlyChanges [.key] s (setKeys s w) := by
  intro p hp; cases p <;> first | exact fun _ => rfl | rfl | exact absurd (List.mem_singleton.mpr rfl) hp

theorem onlyChanges_setDraws (s : State) (w : Nat) : OnlyChanges [.draws] s (setDraws s w) := by
  intro p hp; cases p <;> first | exact fun _ => rfl | rfl | exact absurd (List.mem_singleton.mpr rfl) hp

theorem onlyChanges_writeV (s : State) (x : RegIdx) (b : Byte) :
    OnlyChanges [.v] s (writeV s x b) := onlyChanges_setRegs s _

theorem onlyChanges_writeFlag (s : State) (f : Bool) : OnlyChanges [.v] s (writeFlag s f) :=
  onlyChanges_writeV s _ _

theorem onlyChanges_advance (s : State) : OnlyChanges [.pc] s (advance s) := onlyChanges_setPc s _

theorem onlyChanges_skipIf (c : Bool) (s : State) : OnlyChanges [.pc] s (skipIf c s) := by
  cases c <;> exact onlyChanges_setPc s _

theorem onlyChanges_writeBytes (s : State) (a : Nat) (bs : List Byte) :
    OnlyChanges [.mem] s (writeBytes s a bs) := onlyChanges_setMem s _

theorem onlyChanges_writeResultFlag (s : State) (x : RegIdx) (r : Byte) (f : Bool) :
    OnlyChanges [.v, .pc] s (writeResultFlag s x r f) :=
  (((onlyChanges_writeV s x r).trans (onlyChanges_writeFlag _ f)).trans
    (onlyChanges_advance _)).mono (by simp)

theorem onlyChanges_unknownOpcode (s : State) : OnlyChanges [.pc, .unk] s (unknownOpcode s) :=
  (onlyChanges_advance s).trans (onlyChanges_setUnk _ _)

theorem raised_setFault (c : FaultCode) (s : State) : Raised c s (setFault s c) :=
  ⟨rfl, onlyChanges_setFault s c⟩

end Sys2Proof.Machine
end

