-- ==== Sys2Proof/Laws/Display.lean ====
section
/-! SUPPORT. The laws of the framebuffer: what inverting one cell does, what a walk over distinct cells
does, and that the cells of a sprite are distinct and are those that `SpriteInverts` names. -/

namespace Sys2Proof.Machine

theorem FrameBuffer.pixel_invert (fb : FrameBuffer) (q p : Cell) :
    FrameBuffer.pixel (FrameBuffer.invert fb q) p = (FrameBuffer.pixel fb p ^^ decide (p = q)) := by
  obtain ⟨r, c⟩ := q
  obtain ⟨i, j⟩ := p
  simp only [FrameBuffer.pixel, FrameBuffer.invert, Vector.getElem_set, Prod.mk.injEq]
  by_cases hr : r.val = i.val
  · have hr' : r = i := Fin.ext hr
    subst hr'
    by_cases hc : j = c
    · subst hc; simp
    · have : ¬ j.val = c.val := fun e => hc (Fin.ext e)
      simp [hc, this]
  · have : ¬ i = r := fun e => hr (by rw [e])
    simp [hr, this]

theorem FrameBuffer.pixel_clear (p : Cell) : FrameBuffer.pixel FrameBuffer.clear p = false := by
  simp [FrameBuffer.pixel, FrameBuffer.clear]

/-- A walk over distinct cells inverts exactly those. -/
theorem FrameBuffer.pixel_blit {fb : FrameBuffer} {ps : List Cell} (h : ps.Nodup) (p : Cell) :
    FrameBuffer.pixel (FrameBuffer.blit fb ps) p = (FrameBuffer.pixel fb p ^^ decide (p ∈ ps)) := by
  induction ps generalizing fb with
  | nil => simp [FrameBuffer.blit]
  | cons q ps ih =>
    obtain ⟨hq, hps⟩ := List.nodup_cons.mp h
    rw [FrameBuffer.blit, ih hps, FrameBuffer.pixel_invert]
    by_cases hpq : p = q
    · subst hpq; simp [hq]
    · simp [hpq]

/-- A walk over distinct cells collides exactly when one of them was 1 before it. -/
theorem FrameBuffer.blitHit_iff {fb : FrameBuffer} {ps : List Cell} (h : ps.Nodup) :
    FrameBuffer.blitHit fb ps = true ↔ ∃ p ∈ ps, FrameBuffer.pixel fb p = true := by
  induction ps generalizing fb with
  | nil => simp [FrameBuffer.blitHit]
  | cons q ps ih =>
    obtain ⟨hq, hps⟩ := List.nodup_cons.mp h
    have key : (∃ p ∈ ps, FrameBuffer.pixel (FrameBuffer.invert fb q) p = true) ↔
        ∃ p ∈ ps, FrameBuffer.pixel fb p = true := by
      refine exists_congr fun p => and_congr_right fun hp => ?_
      have : p ≠ q := fun e => hq (e ▸ hp)
      simp [FrameBuffer.pixel_invert, this]
    simp [FrameBuffer.blitHit, ih hps, key]

/-- The cells of the walk are those the sprite lands on (43_display.md R191). -/
theorem mem_spriteCells {s : State} {cx cy n : Nat} {p : Cell} :
    p ∈ spriteCells s cx cy n ↔ SpriteInverts s cx cy n p := by
  obtain ⟨i, j⟩ := p
  simp only [spriteCells, spriteRowCells, List.mem_flatMap, List.mem_map, List.mem_filter,
    List.mem_range, Prod.mk.injEq, Fin.ext_iff, Fin.val_ofNat, SpriteInverts]
  constructor
  · rintro ⟨r, hr, c, ⟨hc, hb⟩, h1, h2⟩
    exact ⟨r, c, hr, hc, hb, h1.symm, h2.symm⟩
  · rintro ⟨r, c, hr, hc, hb, h1, h2⟩
    exact ⟨r, hr, c, ⟨hc, hb⟩, h1.symm, h2.symm⟩

/-- No cell is touched twice: rows are distinct mod 32 and columns mod 64 (43_display.md R191). -/
theorem nodup_spriteCells (s : State) (cx cy : Nat) {n : Nat} (hn : n ≤ 32) :
    (spriteCells s cx cy n).Nodup := by
  rw [spriteCells, List.nodup_flatMap]
  constructor
  · intro r _
    refine List.Nodup.map_on ?_ (List.Nodup.filter _ List.nodup_range)
    intro a ha b hb hab
    simp only [List.mem_filter, List.mem_range] at ha hb
    simp only [Prod.mk.injEq, true_and, Fin.ext_iff, Fin.val_ofNat] at hab
    omega
  · refine List.Pairwise.imp_of_mem ?_ List.nodup_range
    intro a b ha hb hab p hpa hpb
    simp only [spriteRowCells, List.mem_map] at hpa hpb
    obtain ⟨_, _, rfl⟩ := hpa
    obtain ⟨_, _, he⟩ := hpb
    simp only [List.mem_range] at ha hb
    simp only [Prod.mk.injEq, Fin.ext_iff, Fin.val_ofNat] at he
    omega

/-- What a sprite's walk leaves in a cell. -/
theorem pixel_blit_spriteCells (s : State) (fb : FrameBuffer) (cx cy : Nat) (n : Nibble) (p : Cell) :
    FrameBuffer.pixel (FrameBuffer.blit fb (spriteCells s cx cy n.val)) p =
      (FrameBuffer.pixel fb p ^^ decide (p ∈ spriteCells s cx cy n.val)) :=
  FrameBuffer.pixel_blit (nodup_spriteCells s cx cy (by omega)) p

/-- When a sprite's walk collides. -/
theorem blitHit_spriteCells (s : State) (fb : FrameBuffer) (cx cy : Nat) (n : Nibble) :
    FrameBuffer.blitHit fb (spriteCells s cx cy n.val) = true ↔
      ∃ p, SpriteInverts s cx cy n.val p ∧ FrameBuffer.pixel fb p = true := by
  rw [FrameBuffer.blitHit_iff (nodup_spriteCells s cx cy (by omega))]
  exact exists_congr fun p => and_congr_left fun _ => mem_spriteCells

end Sys2Proof.Machine
end

