-- ==== Sys2Proof/Laws/Step.lean ====
section
/-! SUPPORT. Everything a tick can do, said once, and the placing of an instruction at the fetch. -/

namespace Sys2Proof.Machine

/-- The four ways a tick answers a next state (50_host_and_cycle.md R231). -/
theorem step_cases {s t : State} (h : step s = .next t) :
    (s.fault ≠ .noFault ∧ t = s) ∨
    (s.fault = .noFault ∧ 0xFFE < s.pc.toNat ∧ t = setFault s .fetchOutOfRange) ∨
    (s.fault = .noFault ∧ s.pc.toNat ≤ 0xFFE ∧ (∃ e, decodeWord (fetchWord s) = .error e) ∧
      t = unknownOpcode s) ∨
    ∃ i, s.fault = .noFault ∧ FetchesInstr s i ∧ exec i s = .next t := by
  unfold step at h
  split at h
  · rename_i hh
    exact .inl ⟨halted_iff.mp hh, by simpa [eq_comm] using h⟩
  · rename_i hh
    have hf : s.fault = .noFault := not_halted_iff.mp (by simpa using hh)
    split at h
    · rename_i hp
      have hp := fetchable_iff.mp hp
      split at h
      · rename_i i hd
        exact .inr (.inr (.inr ⟨i, hf, ⟨hp, hd⟩, h⟩))
      · rename_i e hd
        exact .inr (.inr (.inl ⟨hf, hp, ⟨e, hd⟩, by simpa [eq_comm] using h⟩))
    · rename_i hp
      have : ¬ s.pc.toNat ≤ 0xFFE := fun hle => hp (fetchable_iff.mpr hle)
      exact .inr (.inl ⟨hf, by omega, raise_eq_next.mp h⟩)

/-! ### `withFetchWord` -/

theorem fetchReady_fault (s : State) : (fetchReady s).fault = .noFault := rfl

theorem fetchReady_pc (s : State) : (fetchReady s).pc.toNat ≤ 0xFFE := by
  unfold fetchReady
  split
  · rename_i h; exact fetchable_iff.mp h
  · show (512 : Nat) ≤ 4094; omega

/-- Where the next tick can already fetch, only memory is written. -/
theorem fetchReady_of_ready {s : State} (hf : s.fault = .noFault) (hp : s.pc.toNat ≤ 0xFFE) :
    fetchReady s = s := by
  unfold fetchReady
  rw [if_pos (fetchable_iff.mpr hp)]
  cases s; cases hf; rfl

/-- The word that the tick after `withFetchWord` fetches. -/
theorem fetchWord_withFetchWord (s : State) (nbits w : Nat) :
    fetchWord (s.withFetchWord nbits w) = tableWord nbits w := by
  unfold fetchWord State.withFetchWord
  generalize fetchReady s = r
  have h0 : readMem (writeBytes r r.pc.toNat
      [highByte (tableWord nbits w), lowByte (tableWord nbits w)]) (r.pc.toNat + 0) =
      highByte (tableWord nbits w) := readMem_writeBytes_inside _ _ _ rfl
  have h1 : readMem (writeBytes r r.pc.toNat
      [highByte (tableWord nbits w), lowByte (tableWord nbits w)]) (r.pc.toNat + 1) =
      lowByte (tableWord nbits w) := readMem_writeBytes_inside _ _ _ rfl
  show wordOfBytes (readMem _ (r.pc.toNat + 0)) (readMem _ (r.pc.toNat + 1)) = _
  rw [h0, h1, wordOfBytes_bytes]

/-- The tick after `withFetchWord` runs the instruction that the decoder reads from the word. -/
theorem step_withFetchWord {nbits w : Nat} {i : Instr} (h : decodeTableWord nbits w = some i)
    (s : State) : step (s.withFetchWord nbits w) = exec i (s.withFetchWord nbits w) := by
  have hd : decodeWord (tableWord nbits w) = .ok i := by
    rw [decodeTableWord_eq] at h
    cases hw : decodeWord (tableWord nbits w) with
    | ok j => rw [hw] at h; simpa using h
    | error e => rw [hw] at h; simp at h
  have hh : halted (s.withFetchWord nbits w) = false := not_halted_iff.mpr (fetchReady_fault s)
  have hp : fetchable (s.withFetchWord nbits w) = true := fetchable_iff.mpr (fetchReady_pc s)
  unfold step
  rw [hh, hp, fetchWord_withFetchWord, hd]
  rfl

end Sys2Proof.Machine
end

