-- ==== Sys2Proof/Laws/Exec.lean ====
section
/-! SUPPORT. Everything an instruction can do, said once: which parts it may write when it does not
fault, and which fault it may raise and when. -/

namespace Sys2Proof.Machine

/-- The parts of the state that an instruction may write when it raises no fault. -/
def writtenParts : Instr → List Part
  | .cls => [.fb, .pc]
  | .ret => [.sp, .pc]
  | .sys _ | .jp _ | .jpV0 _ | .seByte _ _ | .sneByte _ _ | .seReg _ _ | .sneReg _ _
  | .skp _ | .sknp _ => [.pc]
  | .call _ => [.stack, .sp, .pc]
  | .ldByte _ _ | .addByte _ _ | .ldReg _ _ | .orReg _ _ | .andReg _ _ | .xorReg _ _
  | .addReg _ _ | .subReg _ _ | .shr _ _ | .subnReg _ _ | .shl _ _ | .ldVxDt _
  | .loadRegs _ => [.v, .pc]
  | .rnd _ _ => [.v, .draws, .pc]
  | .ldI _ | .addI _ | .ldF _ => [.i, .pc]
  | .drw _ _ _ => [.v, .fb, .pc]
  | .ldVxK _ => [.v, .mode, .pc]
  | .ldDtVx _ => [.dt, .pc]
  | .ldStVx _ => [.st, .pc]
  | .ldB _ | .storeRegs _ => [.mem, .pc]

/-- The fault that an instruction raises in a state, if it raises one. -/
def raisedFault : Instr → State → Option FaultCode
  | .call _, s => if s.sp = 16 then some .stackOverflow else none
  | .ret, s => if s.sp = 0 then some .stackUnderflow else none
  | .drw _ _ n, s => if dataInRange s n.val then none else some .dataOutOfRange
  | .ldB _, s => if dataInRange s 3 then none else some .dataOutOfRange
  | .storeRegs x, s => if dataInRange s (x.val + 1) then none else some .dataOutOfRange
  | .loadRegs x, s => if dataInRange s (x.val + 1) then none else some .dataOutOfRange
  | _, _ => none

/-- An instruction that gives a next state raised its fault and did nothing else, or wrote only its own
parts. -/
theorem exec_cases {i : Instr} {s t : State} (h : exec i s = .next t) :
    (∃ c, raisedFault i s = some c ∧ t = setFault s c) ∨
      raisedFault i s = none ∧ OnlyChanges (writtenParts i) s t := by
  have result : ∀ x r f, Host.Outcome.next (writeResultFlag s x r f) =
      (Host.Outcome.next t : Host.Outcome State Fault Refusal) → OnlyChanges [.v, .pc] s t := by
    intro x r f h; cases h; exact onlyChanges_writeResultFlag s x r f
  have load : ∀ x b, Host.Outcome.next (advance (writeV s x b)) =
      (Host.Outcome.next t : Host.Outcome State Fault Refusal) → OnlyChanges [.v, .pc] s t := by
    intro x b h; cases h; exact (onlyChanges_writeV s x b).trans (onlyChanges_advance _)
  have skip : ∀ c, Host.Outcome.next (skipIf c s) =
      (Host.Outcome.next t : Host.Outcome State Fault Refusal) → OnlyChanges [.pc] s t := by
    intro c h; cases h; exact onlyChanges_skipIf c s
  have index : ∀ a, Host.Outcome.next (advance (setI s a)) =
      (Host.Outcome.next t : Host.Outcome State Fault Refusal) → OnlyChanges [.i, .pc] s t := by
    intro a h; cases h; exact (onlyChanges_setI s a).trans (onlyChanges_advance _)
  cases i with
  | call nnn =>
    simp only [exec, execCall] at h
    split at h
    · rename_i hs; exact .inl ⟨_, if_pos hs, raise_eq_next.mp h⟩
    · rename_i hs
      refine .inr ⟨if_neg hs, ?_⟩
      by_cases hl : s.sp.toNat < 16
      · rw [pushReturn_of_lt hl] at h; cases h
        exact ((onlyChanges_setStack s _).trans (onlyChanges_setSp _ _)).trans
          (onlyChanges_setPc _ _)
      · rw [pushReturn_of_ge (by omega)] at h; cases h
  | ret =>
    simp only [exec, execRet] at h
    split at h
    · rename_i hs; exact .inl ⟨_, if_pos hs, raise_eq_next.mp h⟩
    · rename_i hs
      refine .inr ⟨if_neg hs, ?_⟩
      cases he : stackEntry s (s.sp.toNat - 1) with
      | some a =>
        rw [popReturn_of_entry he] at h; cases h
        exact (onlyChanges_setSp s _).trans (onlyChanges_setPc _ _)
      | none => rw [popReturn_of_none he] at h; cases h
  | drw x y n =>
    simp only [exec, execDrw] at h
    split at h
    · rename_i hd; cases h
      exact .inr ⟨if_pos hd, (((onlyChanges_setFb s _).trans
        (onlyChanges_writeFlag _ _)).trans (onlyChanges_advance _)).mono (by simp [writtenParts])⟩
    · rename_i hd; exact .inl ⟨_, if_neg hd, raise_eq_next.mp h⟩
  | ldB x =>
    simp only [exec, execLdB] at h
    split at h
    · rename_i hd; cases h
      exact .inr ⟨if_pos hd, (onlyChanges_writeBytes s _ _).trans
        (onlyChanges_advance _)⟩
    · rename_i hd; exact .inl ⟨_, if_neg hd, raise_eq_next.mp h⟩
  | storeRegs x =>
    simp only [exec, execStoreRegs] at h
    split at h
    · rename_i hd; cases h
      exact .inr ⟨if_pos hd, (onlyChanges_writeBytes s _ _).trans
        (onlyChanges_advance _)⟩
    · rename_i hd; exact .inl ⟨_, if_neg hd, raise_eq_next.mp h⟩
  | loadRegs x =>
    simp only [exec, execLoadRegs] at h
    split at h
    · rename_i hd; cases h
      exact .inr ⟨if_pos hd, (onlyChanges_setRegs s _).trans
        (onlyChanges_advance _)⟩
    · rename_i hd; exact .inl ⟨_, if_neg hd, raise_eq_next.mp h⟩
  | ldVxK x =>
    refine .inr ⟨rfl, ?_⟩
    simp only [exec, execLdVxK] at h
    split at h
    · cases h; exact (onlyChanges_setMode s _).mono (by simp [writtenParts])
    · cases h
      exact ((onlyChanges_writeV s _ _).trans (onlyChanges_setMode _ _)).trans
        (onlyChanges_advance _)
  | cls => cases h; exact .inr ⟨rfl, (onlyChanges_setFb s _).trans (onlyChanges_advance _)⟩
  | sys nnn => cases h; exact .inr ⟨rfl, onlyChanges_advance s⟩
  | jp nnn => cases h; exact .inr ⟨rfl, onlyChanges_setPc s _⟩
  | jpV0 nnn => cases h; exact .inr ⟨rfl, onlyChanges_setPc s _⟩
  | rnd x kk =>
    cases h
    exact .inr ⟨rfl, (((onlyChanges_setDraws s _).trans (onlyChanges_writeV _ _ _)).trans
      (onlyChanges_advance _)).mono (by simp [writtenParts])⟩
  | ldDtVx x => cases h; exact .inr ⟨rfl, (onlyChanges_setDt s _).trans (onlyChanges_advance _)⟩
  | ldStVx x => cases h; exact .inr ⟨rfl, (onlyChanges_setSt s _).trans (onlyChanges_advance _)⟩
  | ldI nnn => exact .inr ⟨rfl, index _ h⟩
  | addI x => exact .inr ⟨rfl, index _ h⟩
  | ldF x => exact .inr ⟨rfl, index _ h⟩
  | seByte x kk => exact .inr ⟨rfl, skip _ h⟩
  | sneByte x kk => exact .inr ⟨rfl, skip _ h⟩
  | seReg x y => exact .inr ⟨rfl, skip _ h⟩
  | sneReg x y => exact .inr ⟨rfl, skip _ h⟩
  | skp x => exact .inr ⟨rfl, skip _ h⟩
  | sknp x => exact .inr ⟨rfl, skip _ h⟩
  | ldByte x kk => exact .inr ⟨rfl, load _ _ h⟩
  | addByte x kk => exact .inr ⟨rfl, load _ _ h⟩
  | ldReg x y => exact .inr ⟨rfl, load _ _ h⟩
  | orReg x y => exact .inr ⟨rfl, load _ _ h⟩
  | andReg x y => exact .inr ⟨rfl, load _ _ h⟩
  | xorReg x y => exact .inr ⟨rfl, load _ _ h⟩
  | ldVxDt x => exact .inr ⟨rfl, load _ _ h⟩
  | addReg x y => exact .inr ⟨rfl, result _ _ _ h⟩
  | subReg x y => exact .inr ⟨rfl, result _ _ _ h⟩
  | subnReg x y => exact .inr ⟨rfl, result _ _ _ h⟩
  | shr x y => exact .inr ⟨rfl, result _ _ _ h⟩
  | shl x y => exact .inr ⟨rfl, result _ _ _ h⟩

/-- No instruction writes `FAULT` but by raising a fault. -/
theorem fault_not_mem_writtenParts (i : Instr) : Part.fault ∉ writtenParts i := by
  cases i <;> simp [writtenParts]

/-- No instruction writes `KEY`, and none but an unknown word writes `UNK`. -/
theorem input_not_mem_writtenParts (i : Instr) :
    Part.key ∉ writtenParts i ∧ Part.unk ∉ writtenParts i := by
  cases i <;> simp [writtenParts]

end Sys2Proof.Machine
end

