-- ==== Sys2Proof/Laws/HostOps.lean ====
section
/-! SUPPORT. The laws of the host's operations: when an image fits, what a count-down leaves, what an
image leaves in memory, and the frames. -/

namespace Sys2Proof.Machine

theorem imageFits_iff {rom : List Byte} : imageFits rom = true ↔ rom.length ≤ 3584 := by
  unfold imageFits
  rw [decide_eq_true_eq]
  show rom.length + 512 ≤ 4096 ↔ _
  omega

/-- A count-down subtracts 1 from a nonzero timer and leaves 0 as it is (60_exceptions.md R261). -/
theorem countDown_toNat (t : Byte) : (countDown t).toNat = t.toNat - 1 := by
  unfold countDown
  split
  · rename_i h; subst h; rfl
  · rename_i h
    have h0 : t.toNat ≠ 0 := fun e => h (BitVec.eq_of_toNat_eq e)
    have := t.isLt
    simp only [BitVec.toNat_sub, BitVec.reduceToNat]
    omega

theorem soundOn_eq (s : State) : soundOn s = decide (s.st.toNat ≠ 0) := by
  have h : s.st = 0 ↔ s.st.toNat = 0 := ⟨fun e => by rw [e]; rfl, fun e => BitVec.eq_of_toNat_eq e⟩
  rw [Bool.eq_iff_iff, soundOn, bne_iff_ne, decide_eq_true_eq]
  exact not_congr h

theorem onlyChanges_decrementTimers (s : State) : OnlyChanges [.dt, .st] s (decrementTimers s) :=
  (onlyChanges_setDt s _).trans (onlyChanges_setSt _ _)

theorem onlyChanges_setKeyState (s : State) (k : Fin 16) (pressed : Bool) :
    OnlyChanges [.key] s (setKeyState s k pressed) := onlyChanges_setKeys s _

/-- Read after write of a key. -/
theorem keyDown_setKeyState (s : State) (k j : Fin 16) (pressed : Bool) :
    keyDown (setKeyState s k pressed) j = if j = k then pressed else keyDown s j := by
  simp only [keyDown, setKeyState, setKeys_key, Vector.getElem_set]
  by_cases h : j = k
  · simp [h]
  · have : ¬ k.val = j.val := fun e => h (Fin.ext e.symm)
    simp [h, this]

/-! ### What `new`, `reset` and `load` leave -/

/-- The glyphs are the given ones, whatever they are. -/
theorem readMem_initialState_font (font : Config.FontTable) {a : Nat} (h : a < 80) :
    readMem (initialState font) a = font[a] := by
  have := readMem_writeBytes_inside State.reset 0 font.toList (k := a) (b := font[a]) (by simp [h])
  rwa [Nat.zero_add] at this

/-- Above the glyphs memory reads 0. -/
theorem readMem_initialState_above (font : Config.FontTable) {a : Nat} (h : 80 ≤ a) :
    readMem (initialState font) a = 0 := by
  rw [initialState, readMem_writeBytes_outside _ _ _ (by simp; omega)]
  exact Memory.unlisted_of_ge h

theorem wf_initialState (font : Config.FontTable) : Memory.wf (initialState font).mem = true :=
  wf_writeBytes (s := State.reset) rfl (by rw [Vector.length_toList]; decide)

/-- A font that reads as the unlisted content gives `State.reset`. -/
theorem initialState_eq_reset {font : Config.FontTable}
    (h : ∀ a (ha : a < 80), font[a] = Memory.unlisted a) : initialState font = State.reset := by
  have hr : Memory.wf State.reset.mem = true := rfl
  have hm : (initialState font).mem = State.reset.mem := by
    refine Memory.eq_of_read_eq (wf_initialState font) hr fun a => ?_
    have hu : Memory.read State.reset.mem a = Memory.unlisted a := rfl
    have hd : Memory.read (initialState font).mem a = readMem (initialState font) a := rfl
    rw [hu, hd]
    by_cases ha : a < 80
    · rw [readMem_initialState_font font ha, h a ha]
    · rw [readMem_initialState_above font (by omega), Memory.unlisted_of_ge (by omega)]
  have hs : initialState font = setMem State.reset (initialState font).mem := rfl
  have he : setMem State.reset State.reset.mem = State.reset := rfl
  rw [hs, hm, he]

/-- The default `FONT` is the one in `State.reset`. -/
theorem initialState_default : initialState Config.defaultFont = State.reset :=
  initialState_eq_reset fun a ha => by
    rw [Memory.unlisted, Vector.getElem?_eq_getElem ha, Option.getD_some]

theorem onlyChanges_initialState (font : Config.FontTable) :
    OnlyChanges [.mem] State.reset (initialState font) := onlyChanges_writeBytes State.reset 0 _

/-- What a load leaves in memory outside the image: what a reset leaves there. -/
theorem readMem_loadState_outside (font : Config.FontTable) (s : State) (rom : List Byte) {a : Nat}
    (h : a < 0x200 ∨ 0x200 + rom.length ≤ a) :
    readMem (loadState font s rom) a = readMem (resetState font s) a :=
  readMem_writeBytes_outside (setKeys (resetState font s) s.key) Config.progBase rom h

/-- What a load leaves in memory inside the image: the image. -/
theorem readMem_loadState_inside (font : Config.FontTable) (s : State) (rom : List Byte) {k : Nat}
    {b : Byte} (h : rom[k]? = some b) : readMem (loadState font s rom) (0x200 + k) = b :=
  readMem_writeBytes_inside (setKeys (resetState font s) s.key) Config.progBase rom h

theorem onlyChanges_loadState (font : Config.FontTable) (s : State) (rom : List Byte) :
    OnlyChanges [.key, .mem] (resetState font s) (loadState font s rom) :=
  (onlyChanges_setKeys (resetState font s) s.key).trans
    (onlyChanges_writeBytes _ Config.progBase rom)

end Sys2Proof.Machine
end

