-- ==== Sys2Proof/Laws/PerInstr.lean ====
section
/-! SUPPORT. Facts proved one instruction at a time: the word of an instruction has the fixed bits of
its row of the opcode map (30_encoding.md R95). -/

namespace Sys2Proof.Laws.EncodeMatchesRow

/-- The word of the instruction, under its row's `mask`, is its row's `match`. -/
def Statement (i : Instr) : Prop := encode i &&& rowMask i = rowMatch i

/-- Format `A`: the category is the whole of the row. -/
theorem ofA (c : BitVec 4) (nnn : Addr12) {r : Word} (h : r.toNat = c.toNat * 4096) :
    encodeA c nnn &&& 0xF000#16 = r :=
  BitVec.eq_of_toNat_eq (by rw [and_F000, fieldCategory_encodeA, h]; rfl)

/-- Format `XK`. -/
theorem ofXK (c : BitVec 4) (x : RegIdx) (kk : Byte) {r : Word} (h : r.toNat = c.toNat * 4096) :
    encodeXK c x kk &&& 0xF000#16 = r :=
  BitVec.eq_of_toNat_eq (by rw [and_F000, fieldCategory_encodeXK, h]; rfl)

/-- Format `XYN`. -/
theorem ofXYN (c : BitVec 4) (x y : RegIdx) (n : BitVec 4) {r : Word}
    (h : r.toNat = c.toNat * 4096) : encodeXYN c x y n &&& 0xF000#16 = r :=
  BitVec.eq_of_toNat_eq (by rw [and_F000, fieldCategory_encodeXYN, h]; rfl)

/-- Format `XF`: the category and the function byte. -/
theorem ofXF (c : BitVec 4) (x : RegIdx) (kk : Byte) {r : Word}
    (h : r.toNat = c.toNat * 4096 + kk.toNat) : encodeXK c x kk &&& 0xF0FF#16 = r :=
  BitVec.eq_of_toNat_eq (by
    rw [and_F0FF, fieldCategory_encodeXK, h, ← fieldKk_toNat, fieldKk_encodeXK]; rfl)

/-- Format `XY`: the category and the function nibble. -/
theorem ofXY (c : BitVec 4) (x y : RegIdx) (n : BitVec 4) {r : Word}
    (h : r.toNat = c.toNat * 4096 + n.toNat) : encodeXYN c x y n &&& 0xF00F#16 = r :=
  BitVec.eq_of_toNat_eq (by
    rw [and_F00F, fieldCategory_encodeXYN, h, ← fieldN_val, fieldN_encodeXYN]; rfl)

theorem cls : Statement .cls := by rfl
theorem ret : Statement .ret := by rfl
theorem sys (nnn : Addr12) : Statement (.sys nnn) := ofA _ _ rfl
theorem jp (nnn : Addr12) : Statement (.jp nnn) := ofA _ _ rfl
theorem call (nnn : Addr12) : Statement (.call nnn) := ofA _ _ rfl
theorem seByte (x : RegIdx) (kk : Byte) : Statement (.seByte x kk) := ofXK _ _ _ rfl
theorem sneByte (x : RegIdx) (kk : Byte) : Statement (.sneByte x kk) := ofXK _ _ _ rfl
theorem seReg (x : RegIdx) (y : RegIdx) : Statement (.seReg x y) := ofXY _ _ _ _ rfl
theorem ldByte (x : RegIdx) (kk : Byte) : Statement (.ldByte x kk) := ofXK _ _ _ rfl
theorem addByte (x : RegIdx) (kk : Byte) : Statement (.addByte x kk) := ofXK _ _ _ rfl
theorem ldReg (x : RegIdx) (y : RegIdx) : Statement (.ldReg x y) := ofXY _ _ _ _ rfl
theorem orReg (x : RegIdx) (y : RegIdx) : Statement (.orReg x y) := ofXY _ _ _ _ rfl
theorem andReg (x : RegIdx) (y : RegIdx) : Statement (.andReg x y) := ofXY _ _ _ _ rfl
theorem xorReg (x : RegIdx) (y : RegIdx) : Statement (.xorReg x y) := ofXY _ _ _ _ rfl
theorem addReg (x : RegIdx) (y : RegIdx) : Statement (.addReg x y) := ofXY _ _ _ _ rfl
theorem subReg (x : RegIdx) (y : RegIdx) : Statement (.subReg x y) := ofXY _ _ _ _ rfl
theorem shr (x : RegIdx) (y : RegIdx) : Statement (.shr x y) := ofXY _ _ _ _ rfl
theorem subnReg (x : RegIdx) (y : RegIdx) : Statement (.subnReg x y) := ofXY _ _ _ _ rfl
theorem shl (x : RegIdx) (y : RegIdx) : Statement (.shl x y) := ofXY _ _ _ _ rfl
theorem sneReg (x : RegIdx) (y : RegIdx) : Statement (.sneReg x y) := ofXY _ _ _ _ rfl
theorem ldI (nnn : Addr12) : Statement (.ldI nnn) := ofA _ _ rfl
theorem jpV0 (nnn : Addr12) : Statement (.jpV0 nnn) := ofA _ _ rfl
theorem rnd (x : RegIdx) (kk : Byte) : Statement (.rnd x kk) := ofXK _ _ _ rfl
theorem drw (x : RegIdx) (y : RegIdx) (n : Nibble) : Statement (.drw x y n) := ofXYN _ _ _ _ rfl
theorem skp (x : RegIdx) : Statement (.skp x) := ofXF _ _ _ rfl
theorem sknp (x : RegIdx) : Statement (.sknp x) := ofXF _ _ _ rfl
theorem ldVxDt (x : RegIdx) : Statement (.ldVxDt x) := ofXF _ _ _ rfl
theorem ldVxK (x : RegIdx) : Statement (.ldVxK x) := ofXF _ _ _ rfl
theorem ldDtVx (x : RegIdx) : Statement (.ldDtVx x) := ofXF _ _ _ rfl
theorem ldStVx (x : RegIdx) : Statement (.ldStVx x) := ofXF _ _ _ rfl
theorem addI (x : RegIdx) : Statement (.addI x) := ofXF _ _ _ rfl
theorem ldF (x : RegIdx) : Statement (.ldF x) := ofXF _ _ _ rfl
theorem ldB (x : RegIdx) : Statement (.ldB x) := ofXF _ _ _ rfl
theorem storeRegs (x : RegIdx) : Statement (.storeRegs x) := ofXF _ _ _ rfl
theorem loadRegs (x : RegIdx) : Statement (.loadRegs x) := ofXF _ _ _ rfl

end Sys2Proof.Laws.EncodeMatchesRow
end

