-- ==== Sys2Proof/Tests/Slice0.lean ====
section
/-! SUPPORT. The tests: the terms that WellFormed refuses, words written out from the encodings of
30_encoding.md, one tick on the vectors of 95_test_vectors.md, and for every statement with
hypotheses a witness that meets them. Expected values are the spec's. -/

namespace Sys2Proof.Tests

open Sys2Proof.Machine

/-! ### WellFormed refuses -/

theorem test_wf_refuses_sys_of_cls : Instr.wf (.sys 0x0E0#12) = false := by decide
theorem test_wf_refuses_sys_of_ret : Instr.wf (.sys 0x0EE#12) = false := by decide
theorem test_wf_accepts_sys : Instr.wf (.sys 0x0E1#12) = true := by decide

/-! ### Decoding, from the fixed bits and fields of 30_encoding.md R95 -/

theorem test_decode_cls : decodeTableWord 16 0b0000000011100000 = some .cls := by decide
theorem test_decode_ret : decodeTableWord 16 0b0000000011101110 = some .ret := by decide
theorem test_decode_sys : decodeTableWord 16 0b0000000100100011 = some (.sys 0x123#12) := by decide
theorem test_decode_jp : decodeTableWord 16 0b0001101010111100 = some (.jp 0xABC#12) := by decide
theorem test_decode_call : decodeTableWord 16 0b0010001000001010 = some (.call 0x20A#12) := by decide
theorem test_decode_se_byte : decodeTableWord 16 0b0011101001000010 = some (.seByte 0xA 0x42#8) := by
  decide
theorem test_decode_sne_byte : decodeTableWord 16 0b0100101001000010 = some (.sneByte 0xA 0x42#8) := by
  decide
theorem test_decode_se_reg : decodeTableWord 16 0b0101000100100000 = some (.seReg 1 2) := by decide
theorem test_decode_ld_byte : decodeTableWord 16 0b0110101000000010 = some (.ldByte 0xA 0x02#8) := by
  decide
theorem test_decode_add_byte : decodeTableWord 16 0b0111101000000001 = some (.addByte 0xA 0x01#8) := by
  decide
theorem test_decode_ld_reg : decodeTableWord 16 0b1000000100100000 = some (.ldReg 1 2) := by decide
theorem test_decode_or : decodeTableWord 16 0b1000000100100001 = some (.orReg 1 2) := by decide
theorem test_decode_and : decodeTableWord 16 0b1000000100100010 = some (.andReg 1 2) := by decide
theorem test_decode_xor : decodeTableWord 16 0b1000000100100011 = some (.xorReg 1 2) := by decide
theorem test_decode_add_reg : decodeTableWord 16 0b1000000100100100 = some (.addReg 1 2) := by decide
theorem test_decode_sub : decodeTableWord 16 0b1000000100100101 = some (.subReg 1 2) := by decide
theorem test_decode_shr : decodeTableWord 16 0b1000000100100110 = some (.shr 1 2) := by decide
theorem test_decode_subn : decodeTableWord 16 0b1000000100100111 = some (.subnReg 1 2) := by decide
theorem test_decode_shl : decodeTableWord 16 0b1000000100101110 = some (.shl 1 2) := by decide
theorem test_decode_sne_reg : decodeTableWord 16 0b1001000100100000 = some (.sneReg 1 2) := by decide
theorem test_decode_ld_i : decodeTableWord 16 0b1010000100100011 = some (.ldI 0x123#12) := by decide
theorem test_decode_jp_v0 : decodeTableWord 16 0b1011001100000000 = some (.jpV0 0x300#12) := by decide
theorem test_decode_rnd : decodeTableWord 16 0b1100000100001111 = some (.rnd 1 0x0F#8) := by decide
theorem test_decode_drw : decodeTableWord 16 0b1101000000010010 = some (.drw 0 1 2) := by decide
theorem test_decode_skp : decodeTableWord 16 0b1110001110011110 = some (.skp 3) := by decide
theorem test_decode_sknp : decodeTableWord 16 0b1110001110100001 = some (.sknp 3) := by decide
theorem test_decode_ld_vx_dt : decodeTableWord 16 0b1111000100000111 = some (.ldVxDt 1) := by decide
theorem test_decode_ld_vx_k : decodeTableWord 16 0b1111010100001010 = some (.ldVxK 5) := by decide
theorem test_decode_ld_dt : decodeTableWord 16 0b1111000100010101 = some (.ldDtVx 1) := by decide
theorem test_decode_ld_st : decodeTableWord 16 0b1111000100011000 = some (.ldStVx 1) := by decide
theorem test_decode_add_i : decodeTableWord 16 0b1111000100011110 = some (.addI 1) := by decide
theorem test_decode_ld_f : decodeTableWord 16 0b1111000100101001 = some (.ldF 1) := by decide
theorem test_decode_ld_b : decodeTableWord 16 0b1111000100110011 = some (.ldB 1) := by decide
theorem test_decode_store : decodeTableWord 16 0b1111001001010101 = some (.storeRegs 2) := by decide
theorem test_decode_load : decodeTableWord 16 0b1111001001100101 = some (.loadRegs 2) := by decide

/-- The unknown words of the vectors T21, A36, A37, K8 and K9, and one with category 9. -/
theorem test_decode_unknown :
    ([0x5121, 0x8128, 0x812F, 0x9121, 0xE39F, 0xF1FF].map (decodeTableWord 16)) =
      List.replicate 6 none := by decide

/-- The bytes lie most significant first, and the bytes after the instruction are kept. -/
theorem test_decode_bytes : decode [0x12, 0x0A, 0xFF] = .ok (.jp 0x20A#12, [0xFF]) := by rfl
theorem test_decode_truncated : decode [0x12] = .error .truncated := by rfl

/-! ### One tick on a vector -/

/-- The state after `new` with some general registers and `I` set. -/
def start (v : List (RegIdx × Byte)) (i : Word) : State :=
  setI (v.foldl (fun s r => writeV s r.1 r.2) State.reset) i

/-- The state after `new` with some keys pressed. -/
def pressing (s : State) (ks : List (Fin 16)) : State :=
  ks.foldl (fun s k => setKeyState s k true) s

/-- The state after `new` with pixels of one row lit. -/
def lit (s : State) (row : Fin 32) (bits : BitVec 64) : State := setFb s (s.fb.set row.val bits)

/-- One tick leaves a state with the property. -/
def tick (s : State) (p : State → Bool) : Bool :=
  match step s with
  | .next t => p t
  | .fault _ => false
  | .refused _ => false

/-- One tick that runs the word, placed at `PC`, leaves a state with the property. -/
def tickOn (w : Nat) (s : State) (p : State → Bool) : Bool := tick (s.withFetchWord 16 w) p

/-- T2. -/
theorem test_sys : tickOn 0x0123 State.reset
    (fun t => t.pc == 0x202 && t.unk == false) = true := by decide
/-- T3. -/
theorem test_ret : tickOn 0x00EE (setSp (setStack State.reset (State.reset.stack.set 0 0x206)) 1)
    (fun t => t.pc == 0x206 && t.sp == 0 && stackEntry t 0 == some 0x206) = true := by decide
/-- T4. -/
theorem test_ret_underflow : tickOn 0x00EE State.reset
    (fun t => t.fault == .stackUnderflow && t.pc == 0x200 && t.sp == 0) = true := by decide
/-- T5. -/
theorem test_jp : tickOn 0x1ABC State.reset (fun t => t.pc == 0xABC) = true := by decide
/-- T8. -/
theorem test_call : tickOn 0x2300 (setSp (setPc State.reset 0x2F0) 15)
    (fun t => t.pc == 0x300 && t.sp == 16 && stackEntry t 15 == some 0x2F2) = true := by decide
/-- T9. -/
theorem test_call_overflow : tickOn 0x2300 (setSp State.reset 16)
    (fun t => t.fault == .stackOverflow && t.pc == 0x200 && t.sp == 16 &&
      t.stack == State.reset.stack) = true := by decide
/-- T11. -/
theorem test_jp_v0 : tickOn 0xBFFF (start [(0, 0xFF)] 0) (fun t => t.pc == 0x10FE) = true := by decide
/-- T12. -/
theorem test_se_byte : tickOn 0x3A42 (start [(0xA, 0x42)] 0) (fun t => t.pc == 0x204) = true := by
  decide
/-- T22. -/
theorem test_se_byte_past_end : tickOn 0x3000 (setPc State.reset 0xFFE)
    (fun t => t.pc == 0x1002 && t.fault == .noFault) = true := by decide
/-- T14. -/
theorem test_sne_byte_equal : tickOn 0x4A42 (start [(0xA, 0x42)] 0) (fun t => t.pc == 0x202) = true := by
  decide
/-- T15. -/
theorem test_sne_byte : tickOn 0x4A42 (start [(0xA, 0x41)] 0) (fun t => t.pc == 0x204) = true := by
  decide
/-- T16. -/
theorem test_se_reg : tickOn 0x5120 (start [(1, 7), (2, 7)] 0) (fun t => t.pc == 0x204) = true := by
  decide
/-- T17. -/
theorem test_se_reg_differ : tickOn 0x5120 (start [(1, 7), (2, 8)] 0)
    (fun t => t.pc == 0x202) = true := by decide
/-- T19. -/
theorem test_sne_reg_equal : tickOn 0x9120 (start [(1, 7), (2, 7)] 0)
    (fun t => t.pc == 0x202) = true := by decide
/-- T20. -/
theorem test_sne_reg : tickOn 0x9120 (start [(1, 7), (2, 8)] 0) (fun t => t.pc == 0x204) = true := by
  decide
/-- T21. -/
theorem test_unknown : tickOn 0x5121 (start [(1, 7), (2, 7)] 0)
    (fun t => t.pc == 0x202 && t.unk) = true := by decide

/-- A1. -/
theorem test_ld_byte : tickOn 0x6AFF (start [(0xA, 1)] 0)
    (fun t => readV t 0xA == 0xFF && t.pc == 0x202) = true := by decide
/-- A2. -/
theorem test_add_byte : tickOn 0x7A01 (start [(0xA, 0xFF), (0xF, 0x55)] 0)
    (fun t => readV t 0xA == 0 && readV t vf == 0x55) = true := by decide
/-- A3. -/
theorem test_add_byte_vf : tickOn 0x7F01 (start [(0xF, 0xFF)] 0) (fun t => readV t vf == 0) = true := by
  decide
/-- A4. -/
theorem test_ld_reg : tickOn 0x8120 (start [(1, 1), (2, 0x9C)] 0)
    (fun t => readV t 1 == 0x9C && readV t 2 == 0x9C) = true := by decide
/-- A5. -/
theorem test_or : tickOn 0x8121 (start [(1, 0x0F), (2, 0xF0), (0xF, 7)] 0)
    (fun t => readV t 1 == 0xFF && readV t vf == 7) = true := by decide
/-- A6. -/
theorem test_and : tickOn 0x8122 (start [(1, 0x3C), (2, 0x0F), (0xF, 7)] 0)
    (fun t => readV t 1 == 0x0C && readV t vf == 7) = true := by decide
/-- A7. -/
theorem test_xor : tickOn 0x8123 (start [(1, 0xFF), (2, 0x0F), (0xF, 7)] 0)
    (fun t => readV t 1 == 0xF0 && readV t vf == 7) = true := by decide
/-- A9. -/
theorem test_add_carry : tickOn 0x8124 (start [(1, 0xC8), (2, 0x64)] 0)
    (fun t => readV t 1 == 0x2C && readV t vf == 1) = true := by decide
/-- A14. -/
theorem test_add_flag_wins : tickOn 0x8F14 (start [(0xF, 0x10), (1, 0x20)] 0)
    (fun t => readV t vf == 0) = true := by decide
/-- A17. -/
theorem test_sub_borrow : tickOn 0x8125 (start [(1, 0x10), (2, 0x20)] 0)
    (fun t => readV t 1 == 0xF0 && readV t vf == 0) = true := by decide
/-- A19. -/
theorem test_sub_equal : tickOn 0x8125 (start [(1, 0x33), (2, 0x33)] 0)
    (fun t => readV t 1 == 0 && readV t vf == 1) = true := by decide
/-- A25. -/
theorem test_shr : tickOn 0x8126 (start [(1, 0x05), (2, 0xFF)] 0)
    (fun t => readV t 1 == 2 && readV t vf == 1 && readV t 2 == 0xFF) = true := by decide
/-- A28. -/
theorem test_shr_flag_wins : tickOn 0x8F06 (start [(0xF, 2)] 0) (fun t => readV t vf == 0) = true := by
  decide
/-- A22. -/
theorem test_subn : tickOn 0x8127 (start [(1, 0x10), (2, 0x20)] 0)
    (fun t => readV t 1 == 0x10 && readV t vf == 1) = true := by decide
/-- A23. -/
theorem test_subn_borrow : tickOn 0x8127 (start [(1, 0x20), (2, 0x10)] 0)
    (fun t => readV t 1 == 0xF0 && readV t vf == 0) = true := by decide
/-- A29. -/
theorem test_shl : tickOn 0x812E (start [(1, 0x81), (2, 0)] 0)
    (fun t => readV t 1 == 2 && readV t vf == 1) = true := by decide
/-- A30. -/
theorem test_shl_no_carry : tickOn 0x812E (start [(1, 0x41), (2, 0xFF)] 0)
    (fun t => readV t 1 == 0x82 && readV t vf == 0) = true := by decide
/-- A33, for whatever byte the first draw is. -/
theorem test_rnd : ∃ t, step (State.reset.withFetchWord 16 0xC10F) = .next t ∧
    readV t 1 = Config.randByte 0 &&& 0x0F ∧ t.draws = 1 := ⟨_, rfl, rfl, rfl⟩

/-- M2. -/
theorem test_ld_i : tickOn 0xAFFF State.reset (fun t => t.i == 0xFFF && t.pc == 0x202) = true := by
  decide
/-- M3. -/
theorem test_add_i : tickOn 0xF11E (start [(1, 1), (0xF, 9)] 0xFFF)
    (fun t => t.i == 0x1000 && readV t vf == 9 && t.fault == .noFault) = true := by decide
/-- M4. -/
theorem test_add_i_wraps : tickOn 0xF11E (start [(1, 2)] 0xFFFF) (fun t => t.i == 1) = true := by decide
/-- M5. -/
theorem test_ld_f : tickOn 0xF129 (start [(1, 0x0A)] 0)
    (fun t => t.i == 50 && [50, 51, 52, 53, 54].map (readMem t) == [0xF0, 0x90, 0xF0, 0x90, 0x90]) =
      true := by decide
/-- M6. -/
theorem test_ld_f_low_nibble : tickOn 0xF129 (start [(1, 0x1F)] 0) (fun t => t.i == 75) = true := by
  decide
/-- M11. -/
theorem test_ld_b : tickOn 0xF133 (start [(1, 123)] 0xFFD)
    (fun t => [0xFFD, 0xFFE, 0xFFF].map (readMem t) == [1, 2, 3] && t.i == 0xFFD) = true := by decide
/-- M12. -/
theorem test_ld_b_out_of_range : tickOn 0xF133 (start [(1, 123)] 0xFFE)
    (fun t => t.fault == .dataOutOfRange && t.pc == 0x200 &&
      [0xFFE, 0xFFF].map (readMem t) == [0, 0]) = true := by decide
/-- M13. -/
theorem test_store : tickOn 0xF255 (start [(0, 0x11), (1, 0x22), (2, 0x33), (3, 0x44)] 0x400)
    (fun t => [0x400, 0x401, 0x402, 0x403].map (readMem t) == [0x11, 0x22, 0x33, 0] &&
      t.i == 0x400) = true := by decide
/-- M15. -/
theorem test_store_out_of_range : tickOn 0xF155 (start [(0, 0xAB), (1, 0xCD)] 0xFFF)
    (fun t => t.fault == .dataOutOfRange && t.pc == 0x200 && readMem t 0xFFF == 0) = true := by decide
/-- M18. -/
theorem test_load : tickOn 0xF265 (start [(3, 5)] 0)
    (fun t => [0, 1, 2, 3].map (readV t) == [0xF0, 0x90, 0x90, 5] && t.i == 0) = true := by decide
/-- M19. -/
theorem test_load_out_of_range : tickOn 0xF165 (start [(0, 1), (1, 2)] 0xFFF)
    (fun t => t.fault == .dataOutOfRange && readV t 0 == 1 && readV t 1 == 2) = true := by decide

/-- DR1. -/
theorem test_cls : tickOn 0x00E0 (lit (start [(0xF, 1)] 0) 3 0x10)
    (fun t => t.fb == Vector.replicate 32 0 && readV t vf == 1 && t.pc == 0x202) = true := by decide
/-- DR5: row 31, column 63, then columns 0 to 6. -/
theorem test_drw_wraps : tickOn 0xD011 (writeBytes (start [(0, 0xFF), (1, 0xFF)] 0x300) 0x300 [0xFF])
    (fun t => t.fb == (Vector.replicate 32 0).set 31 0x800000000000007F && readV t vf == 0) = true := by
  decide
/-- DR8. -/
theorem test_drw_collides : tickOn 0xD011 (lit (writeBytes (start [] 0x300) 0x300 [0xC0]) 0 2)
    (fun t => t.fb == (Vector.replicate 32 0).set 0 1 && readV t vf == 1) = true := by decide

/-- K1. -/
theorem test_skp : tickOn 0xE39E (pressing (start [(3, 0x15)] 0) [5]) (fun t => t.pc == 0x204) = true := by
  decide
/-- K3. -/
theorem test_skp_up : tickOn 0xE39E (start [(3, 0x0F)] 0) (fun t => t.pc == 0x202) = true := by decide
/-- K2. -/
theorem test_sknp : tickOn 0xE3A1 (pressing (start [(3, 0x15)] 0) [5])
    (fun t => t.pc == 0x202) = true := by decide
/-- K4. -/
theorem test_sknp_up : tickOn 0xE3A1 (start [(3, 0x0F)] 0) (fun t => t.pc == 0x204) = true := by decide
/-- K5. -/
theorem test_ld_vx_k : tickOn 0xFF0A (pressing (start [(0xF, 9)] 0) [15, 0])
    (fun t => readV t vf == 0 && t.pc == 0x202 && t.mode == .run) = true := by decide
/-- K7, the first tick. -/
theorem test_ld_vx_k_waits : tickOn 0xF10A (start [(1, 7)] 0)
    (fun t => t.pc == 0x200 && t.mode == .waitKey && readV t 1 == 7) = true := by decide
/-- K10. -/
theorem test_ld_vx_dt : tickOn 0xF107 (setDt State.reset 0x2A)
    (fun t => readV t 1 == 0x2A && t.dt == 0x2A) = true := by decide
/-- K11, the tick. -/
theorem test_ld_dt : tickOn 0xF115 (start [(1, 0xFF)] 0) (fun t => t.dt == 0xFF && t.st == 0) = true := by
  decide
/-- K12, the tick. -/
theorem test_ld_st : tickOn 0xF118 (start [(1, 1)] 0)
    (fun t => t.st == 1 && soundOn t && t.dt == 0) = true := by decide

/-- T23. -/
theorem test_fetch_last_byte : tick (setPc State.reset 0xFFF)
    (fun t => t == setFault (setPc State.reset 0xFFF) .fetchOutOfRange) = true := by decide
/-- T24. -/
theorem test_fetch_past_end : tick (setPc State.reset 0x1000)
    (fun t => t == setFault (setPc State.reset 0x1000) .fetchOutOfRange) = true := by decide
/-- T25. -/
theorem test_halted : tick (setFault State.reset .stackUnderflow)
    (fun t => t == setFault State.reset .stackUnderflow) = true := by decide

/-! ### The host's operations -/

/-- One host operation leaves a state with the property, and gives this answer. -/
def hostOn (op : HostOp) (s : State) (p : State → Bool) (r : HostReply) : Bool :=
  match hostStep Config.defaultFont op s with
  | .next (t, a) => p t && a == r
  | .fault _ => false
  | .refused _ => false

/-- H9, with H8's key. -/
theorem test_load_image : hostOn (.load [0x00, 0xE0]) (pressing (setDt (start [(5, 9)] 7) 4) [3])
    (fun t => readV t 5 == 0 && t.i == 0 && t.dt == 0 && keyDown t 3 && t.pc == 0x200 &&
      [0x1FF, 0x200, 0x201, 0x202].map (readMem t) == [0, 0, 0xE0, 0]) .done = true := by decide +kernel
/-- H7. -/
theorem test_reset_releases_keys : hostOn .reset (pressing State.reset [3])
    (fun t => t == State.reset) .done = true := by decide +kernel
/-- H1. -/
theorem test_new : hostOn .new (start [(5, 9)] 7)
    (fun t => [0, 1, 2, 3, 4, 0x50, 0x200].map (readMem t) == [0xF0, 0x90, 0x90, 0x90, 0xF0, 0, 0] &&
      t.pc == 0x200) .done = true := by decide +kernel
/-- H1 with another `FONT`, all of whose bytes are 0x3C: a reset puts it into memory and lists it. -/
theorem test_reset_other_font :
    (match hostStep (Vector.replicate 80 0x3C) .reset (start [(5, 9)] 7) with
    | .next (t, _) => [0, 1, 79, 80, 0x200].map (readMem t) == [0x3C, 0x3C, 0x3C, 0, 0] &&
        Memory.wf t.mem && readV t 5 == 0
    | _ => false) = true := by decide +kernel
/-- K15. -/
theorem test_count_down_halted : hostOn .decrementTimers
    (setFault (setDt State.reset 2) .stackOverflow)
    (fun t => t.dt == 1 && t.st == 0 && t.fault == .stackOverflow) .done = true := by decide +kernel

/-! ### Witnesses: for each statement with hypotheses, states and operands that meet them -/

/-- A state whose next word, a call, is at 0x200, with two registers and a byte of memory set. -/
def calling : State := (start [(0, 0x12), (1, 0x34)] 0x202).withFetchWord 16 0x2300

/-- A state that waits for a key at 0x200. -/
def waiting : State := setMode (State.reset.withFetchWord 16 0xF10A) .waitKey

/-- A halted state. -/
def haltedState : State := setFault State.reset .stackOverflow

/-- `ResetIsInitialForDefaultFont`: a state other than `State.reset`. -/
theorem witness_no_draw : calling.draws = 0 ∧ calling ≠ State.reset := by decide
theorem witness_load_fits : ([0x12, 0x00] : List Byte).length ≤ 3584 ∧
    ([0x12, 0x00] : List Byte)[1]? = some 0x00 ∧ (List.replicate 3584 (0xAA : Byte)).length ≤ 3584 := by
  refine ⟨by decide, by decide, ?_⟩; rw [List.length_replicate]
theorem witness_load_oversized : (List.replicate 3585 (0xAA : Byte)).length + 0x200 > 4096 := by
  rw [List.length_replicate]; decide
theorem witness_set_key : (3 : Fin 16) ≠ 5 ∧ 15 < 16 := by decide

/-- `TickRunsDecodedInstruction`: halted; the two sides of the fetch limit; an unknown word. -/
theorem witness_tick_halted : haltedState.fault ≠ .noFault := by decide
theorem witness_tick_past_end : (setPc State.reset 0xFFF).fault = .noFault ∧
    (setPc State.reset 0xFFF).pc.toNat > 0xFFE := by decide
theorem witness_tick_decodes : (setPc State.reset 0xFFE).fault = .noFault ∧
    FetchesInstr (setPc State.reset 0xFFE) (.sys 0#12) := ⟨by decide, by decide, rfl⟩
theorem witness_tick_unknown : (State.reset.withFetchWord 16 0x5121).fault = .noFault ∧
    (State.reset.withFetchWord 16 0x5121).pc.toNat ≤ 0xFFE ∧
    decodeWord (fetchWord (State.reset.withFetchWord 16 0x5121)) = .error .unknown5xyN :=
  ⟨by decide, by decide, rfl⟩

/-- `OnlyResetsLeaveHaltedState`: a halted state in which a count-down, a tick and a load answer. -/
theorem witness_halted_answers : haltedState.fault ≠ .noFault ∧
    (∃ t, hostStep Config.defaultFont .decrementTimers haltedState = .next (t, .done)) ∧
    (∃ t, hostStep Config.defaultFont .tick haltedState = .next (t, .done)) ∧
    ∃ t, hostStep Config.defaultFont (.load [0x12, 0x00]) haltedState = .next (t, .done) :=
  ⟨by decide, ⟨_, rfl⟩, ⟨_, rfl⟩, ⟨_, rfl⟩⟩

/-- `FaultingTickChangesOnlyFault`. -/
theorem witness_faulting_tick : (setPc State.reset 0x1000).fault = .noFault ∧
    ∃ t, step (setPc State.reset 0x1000) = .next t ∧ t.fault ≠ .noFault := ⟨by decide, _, rfl, by decide⟩

/-- `FaultsComeFromTheirInstructions`, one witness for each of its cases, at the limits. -/
theorem witness_faults : (∃ t, exec (.call 0x300#12) (setSp State.reset 16) = .next t ∧
      t.fault = .stackOverflow) ∧
    (∃ t, exec .ret State.reset = .next t ∧ t.fault = .stackUnderflow) ∧
    (∃ t, exec (.drw 0 0 2) (setI State.reset 0xFFF) = .next t ∧ t.fault = .dataOutOfRange) ∧
    (∃ t, exec (.ldB 1) (setI State.reset 0xFFE) = .next t ∧ t.fault = .dataOutOfRange) ∧
    (∃ t, exec (.storeRegs 15) (setI State.reset 0xFF1) = .next t ∧ t.fault = .dataOutOfRange) ∧
    ∃ t, exec (.loadRegs 0) (setI State.reset 0x1000) = .next t ∧ t.fault = .dataOutOfRange :=
  ⟨⟨_, rfl, rfl⟩, ⟨_, rfl, rfl⟩, ⟨_, rfl, rfl⟩, ⟨_, rfl, rfl⟩, ⟨_, rfl, rfl⟩, ⟨_, rfl, rfl⟩⟩

/-- `TickChangesPartsOnlyByTheirInstructions`: ticks that answer and change a part. -/
theorem witness_parts_change :
    ([0xA123, 0xF11E, 0xF129, 0x2300].map fun w =>
      tickOn w (start [(1, 0x34)] 0x202) fun t => t.i != 0x202 || t.sp != 0) =
        List.replicate 4 true ∧
    ([0xF115, 0xF118, 0xF133, 0xF155].map fun w =>
      tickOn w (start [(0, 0x12), (1, 0x34)] 0x300) fun t =>
        t.dt != 0 || t.st != 0 || readMem t 0x301 != 0) = List.replicate 4 true ∧
    tickOn 0x00EE (setSp State.reset 1) (fun t => t.sp == 0) = true ∧
    tickOn 0x00E0 (lit State.reset 0 1) (fun t => t.fb != (lit State.reset 0 1).fb) = true ∧
    tickOn 0xD001 State.reset (fun t => t.fb != State.reset.fb) = true ∧
    tickOn 0xF10A State.reset (fun t => t.mode != .run) = true ∧
    tickOn 0xF1FF State.reset (fun t => t.unk) = true := by decide
/-- The same statement, the clause on `V`: each kind of word that changes a register. -/
theorem witness_registers_change :
    ([0x6107, 0x7107, 0x8120, 0x8121, 0x8122, 0x8123, 0x8124, 0x8125, 0x8126, 0x8127, 0x812E, 0xF107,
      0xF10A, 0xF165].map fun w =>
      tickOn w (pressing (setDt (start [(1, 0x34), (2, 0x0F)] 0) 9) [5]) fun t =>
        readV t 1 != 0x34) = List.replicate 14 true ∧
    tickOn 0xD001 (start [(0xF, 7)] 0) (fun t => readV t vf != 7) = true ∧
    tickOn 0xC100 (start [(1, 7)] 0) (fun t => t.draws != 0) = true := by decide
/-- The same statement, the clauses on `FAULT`: each kind of fault, the fetch from both sides. -/
theorem witness_fault_changes :
    tickOn 0x00EE State.reset (fun t => t.fault == .stackUnderflow) = true ∧
    tickOn 0x2300 (setSp State.reset 16) (fun t => t.fault == .stackOverflow) = true ∧
    (([0xF133, 0xF155, 0xF165, 0xD002].map fun w =>
      tickOn w (setI State.reset 0xFFF) fun t => t.fault == .dataOutOfRange) =
        List.replicate 4 true) ∧
    tick (setPc State.reset 0xFFF) (fun t => t.fault == .fetchOutOfRange) = true ∧
    tick (setPc State.reset 0xFFE) (fun t => t.fault == .noFault && t.pc != 0xFFE) = true := by decide

/-- `TickFixedPoints`, each of its cases. -/
theorem witness_fixed_points : haltedState.fault ≠ .noFault ∧
    (FetchesInstr (State.reset.withFetchWord 16 0x1200) (.jp 0x200#12) ∧
      (State.reset.withFetchWord 16 0x1200).pc.toNat = (0x200#12).toNat) ∧
    (FetchesInstr ((start [(0, 1)] 0).withFetchWord 16 0xB1FF) (.jpV0 0x1FF#12) ∧
      ((start [(0, 1)] 0).withFetchWord 16 0xB1FF).pc.toNat = (0x1FF#12).toNat +
        (readV ((start [(0, 1)] 0).withFetchWord 16 0xB1FF) 0).toNat) ∧
    FetchesInstr waiting (.ldVxK 1) ∧ (∀ k, keyDown waiting k = false) ∧ waiting.mode = .waitKey :=
  ⟨by decide, ⟨⟨by decide, rfl⟩, by decide⟩, ⟨⟨by decide, rfl⟩, by decide⟩, ⟨by decide, rfl⟩,
    by decide, rfl⟩

/-- `ZeroedMemoryRunsAsNoOps`, at the end of memory, also from an odd address, where the last fetch that
is in range is at 0xFFD. -/
theorem witness_zeroed : State.reset.fault = .noFault ∧
    (∀ a, State.reset.pc.toNat ≤ a → a < 4096 → readMem State.reset a = 0) ∧
    State.reset.pc.toNat + 2 * 1792 ≤ 0x1000 ∧ State.reset.pc.toNat + 2 * 1792 > 0xFFE := by
  refine ⟨rfl, fun a h _ => ?_, by decide, by decide⟩
  have h : 512 ≤ a := h
  exact Memory.unlisted_of_ge (by omega)
theorem witness_zeroed_odd : (setPc State.reset 0xFFD).pc.toNat + 2 * 1 ≤ 0x1000 ∧
    (setPc State.reset 0xFFD).pc.toNat + 2 * 1 > 0xFFE := by decide

/-- `StoreIsSeenByNextFetch` (M21). -/
theorem witness_store_over_next : dataBase calling + (1 : RegIdx).val ≤ 0xFFF ∧
    (1 : RegIdx) ≤ 1 ∧ (1 : RegIdx).val = (0 : RegIdx).val + 1 ∧
    dataBase calling + (0 : RegIdx).val = (calling.pc + 2).toNat := by decide

/-- `DecodeOfEncode`, `EncodeOfDecode`, `DecoderFollowsTheOpcodeMap`. -/
theorem witness_encodings : Instr.wf (.sys 0xFFF#12) = true ∧
    decodeWord 0xFF65#16 = .ok (.loadRegs 15) ∧
    0xFF65#16 &&& rowMask (.loadRegs 0) = rowMatch (.loadRegs 0) ∧
    0x00EF#16 &&& rowMask (.sys 0) = rowMatch (.sys 0) ∧ 0x00EF#16 ≠ 0x00E0#16 ∧
    0x00EF#16 ≠ 0x00EE#16 := ⟨by decide, rfl, by decide, by decide, by decide, by decide⟩

/-- `UnknownWordsAreTheFivePatterns`: a word of each pattern. -/
theorem witness_unknown_words : decodeWord 0x5121#16 = .error .unknown5xyN ∧
    decodeWord 0x812F#16 = .error .unknown8xyN ∧ decodeWord 0x912F#16 = .error .unknown9xyN ∧
    decodeWord 0xE39F#16 = .error .unknownExkk ∧ decodeWord 0xF1FF#16 = .error .unknownFxkk :=
  ⟨rfl, rfl, rfl, rfl, rfl⟩

/-- `CallPushesReturnAddress`, `RetPopsReturnAddress`, `StackLimitsFault`, at both ends of `SP`. -/
theorem witness_stack_pointers : State.reset.sp.toNat < 16 ∧ (setSp State.reset 15).sp.toNat < 16 ∧
    0 < (setSp State.reset 1).sp.toNat ∧ (setSp State.reset 16).sp.toNat ≤ 16 ∧
    (setSp State.reset 16).sp.toNat = 16 ∧ State.reset.sp.toNat = 0 ∧
    16 < (setSp State.reset 17).sp.toNat := by decide

/-- `RetReturnsAfterCall`: the state right after the call, with one more register written. -/
theorem witness_ret_after_call : calling.sp.toNat < 16 ∧ ∃ t u, exec (.call 0x300#12) calling = .next t ∧
    u = writeV t 3 7 ∧ u.sp = t.sp ∧ ∀ j, j < 16 → stackEntry u j = stackEntry t j :=
  ⟨by decide, _, _, rfl, rfl, rfl, fun _ _ => rfl⟩

/-- `KeySkips` (K1). -/
theorem witness_key_skips : (5 : Fin 16).val =
    (readV (pressing (start [(3, 0x15)] 0) [5]) 3).toNat % 16 := by decide

/-- `BcdStoresThreeDigits`, `BlockStore`, `BlockLoad` and `DataOutOfRangeFaults`, on both sides of the
end of memory. -/
theorem witness_data_ranges : dataBase (setI State.reset 0xFFD) + 2 ≤ 0xFFF ∧
    dataBase (setI State.reset 0xFFE) + 2 > 0xFFF ∧
    dataBase (setI State.reset 0xFF0) + (15 : RegIdx).val ≤ 0xFFF ∧
    dataBase (setI State.reset 0xFFF) + (0 : RegIdx).val ≤ 0xFFF ∧
    dataBase (setI State.reset 0xFF1) + (15 : RegIdx).val > 0xFFF ∧
    dataBase (setI State.reset 0x1000) + (0 : RegIdx).val > 0xFFF ∧
    1 ≤ (2 : Nibble).val ∧ dataBase (setI State.reset 0xFFF) + (2 : Nibble).val - 1 > 0xFFF := by
  decide

/-- `BlockRoundTrip` (S6): the registers are overwritten between the store and the load. -/
theorem witness_block_round_trip : dataBase calling + (2 : RegIdx).val ≤ 0xFFF ∧
    ∃ t u, exec (.storeRegs 2) calling = .next t ∧ u = writeV t 0 0 ∧ u.i = t.i ∧
      ∀ a, dataBase calling ≤ a → a ≤ dataBase calling + (2 : RegIdx).val →
        readMem u a = readMem t a :=
  ⟨by decide, _, _, rfl, rfl, rfl, fun _ _ _ => rfl⟩

/-- `DrwXorsSprite`: no rows with `I` outside memory, one row at its last byte. -/
theorem witness_drw_range : (0 : Nibble).val = 0 ∧
    dataBase (setI State.reset 0xFFF) + (1 : Nibble).val - 1 ≤ 0xFFF := by decide
/-- `DrwXorsSprite`: a cell that the sprite inverts, one that it does not, lit and not. -/
theorem witness_drw_cells : SpriteInverts State.reset 0 0 1 (0, 3) ∧
    ¬ SpriteInverts State.reset 0 0 1 (0, 4) ∧ pixel (lit State.reset 0 8) (0, 3) = true ∧
    pixel State.reset (0, 3) = false := by
  refine ⟨⟨0, 3, by decide⟩, ?_, by decide, by decide⟩
  rw [← mem_spriteCells]; decide
/-- `DrwTwiceRestores`: the second draw from other registers that hold the coordinates. -/
theorem witness_drw_twice : ∃ t u, exec (.drw vf vf 1) State.reset = .next t ∧
    u = writeV (writeV t 1 0) 2 0 ∧ OnlyChanges [.v, .pc] t u ∧ readV u 1 = readV State.reset vf ∧
    readV u 2 = readV State.reset vf :=
  ⟨_, _, rfl, rfl, ((onlyChanges_writeV _ _ _).trans (onlyChanges_writeV _ _ _)).mono (by simp),
    rfl, rfl⟩

/-- `KeyWait`: no key, and a least key. -/
theorem witness_key_wait : (∀ k, keyDown waiting k = false) ∧
    keyDown (pressing waiting [15, 4]) 4 = true ∧
    ∀ j : Fin 16, j < 4 → keyDown (pressing waiting [15, 4]) j = false := by decide

/-- `TickKeepsLegal`, `HostOpsKeepLegal`, `RunsStayLegal`: a legal state that waits for a key, with a
return address on its stack. -/
theorem witness_legal : Legal (setSp (setStack waiting (waiting.stack.set 0 0x1000)) 1) := by
  have entries : ∀ k : Fin 16, (stackEntry (setSp (setStack waiting (waiting.stack.set 0 0x1000)) 1)
      k.val).all (fun a => decide (a.toNat ≤ 0x1000)) = true := by decide
  refine ⟨by decide, by decide, fun j a h => ?_, fun _ => ⟨rfl, by decide, 1, rfl⟩, by decide⟩
  by_cases hj : j < 16
  · have := entries ⟨j, hj⟩
    rw [h] at this
    simpa using this
  · rw [stackEntry_of_ge _ (by omega)] at h; cases h
theorem witness_run : ∀ op ∈ ([.tick, .setKey 15 true, .decrementTimers, .load [0x12]] : List HostOp),
    ∀ k pressed, op = .setKey k pressed → k ≤ 15 := by simp

/-- `TickKeepsMemoryCanonical`: a memory that lists bytes, and a tick that answers. -/
theorem witness_canonical : Memory.wf calling.mem = true ∧ calling.mem ≠ [] ∧
    ∃ t, step calling = .next t := ⟨by decide, by decide, _, rfl⟩

end Sys2Proof.Tests
end

section
/-! The legal states (10_state.md R34). First what the instructions with more than one outcome can do,
then what an instruction keeps of each clause of `Legal`, then ticks, host operations and runs. -/

namespace Sys2Proof.Machine

/-! ### Outcomes of the instructions that branch -/

/-- A memory instruction faults, or its access is in range and it does its work. -/
theorem guarded_cases {s t u : State} {len : Nat}
    (h : (if dataInRange s len then .next u else raise .dataOutOfRange s) = .next t) :
    t = setFault s .dataOutOfRange ∨ dataInRange s len = true ∧ t = u := by
  split at h
  · rename_i hd; cases h; exact .inr ⟨hd, rfl⟩
  · exact .inl (raise_eq_next.mp h)

theorem exec_call_cases {nnn : Addr12} {s t : State} (h : exec (.call nnn) s = .next t) :
    t = setFault s .stackOverflow ∨ ∃ hl : s.sp.toNat < 16,
      t = setPc (setSp (setStack s (s.stack.set s.sp.toNat (npc s) hl)) (s.sp + 1))
        (zextAddr nnn) := by
  simp only [exec, execCall] at h
  split at h
  · exact .inl (raise_eq_next.mp h)
  · by_cases hl : s.sp.toNat < 16
    · rw [pushReturn_of_lt hl] at h; cases h; exact .inr ⟨hl, rfl⟩
    · rw [pushReturn_of_ge (by omega)] at h; cases h

theorem exec_ret_cases {s t : State} (h : exec .ret s = .next t) :
    t = setFault s .stackUnderflow ∨ s.sp ≠ 0 ∧ ∃ a, stackEntry s (s.sp.toNat - 1) = some a ∧
      t = setPc (setSp s (s.sp - 1)) a := by
  simp only [exec, execRet] at h
  split at h
  · exact .inl (raise_eq_next.mp h)
  · rename_i hs
    cases he : stackEntry s (s.sp.toNat - 1) with
    | some a => rw [popReturn_of_entry he] at h; cases h; exact .inr ⟨hs, a, rfl, rfl⟩
    | none => rw [popReturn_of_none he] at h; cases h

theorem exec_ldVxK_cases {x : RegIdx} {s t : State} (h : exec (.ldVxK x) s = .next t) :
    t = setMode s .waitKey ∨ ∃ k : Fin 16,
      t = advance (setMode (writeV s x (BitVec.ofNat 8 k.val)) .run) := by
  simp only [exec, execLdVxK] at h
  split at h
  · cases h; exact .inl rfl
  · rename_i k _; cases h; exact .inr ⟨k, rfl⟩

/-- `exec_cases` for one part other than `FAULT`: outside the written parts it is as before, whether
the instruction faulted or not. -/
theorem exec_same {i : Instr} {s t : State} {p : Part} (h : exec i s = .next t) (hf : p ≠ .fault)
    (hp : p ∉ writtenParts i) : Part.same s t p := by
  obtain ⟨c, _, rfl⟩ | ⟨_, hc⟩ := exec_cases h
  · exact onlyChanges_setFault s c p (by simpa using hf)
  · exact hc p hp

/-- With `SP` in its range every instruction answers: only a `CALL` or `RET` above 16 stops. -/
theorem exec_answers {s : State} (hsp : s.sp.toNat ≤ 16) (i : Instr) : ∃ t, exec i s = .next t := by
  cases i with
  | call nnn =>
    simp only [exec, execCall]
    split
    · exact ⟨_, rfl⟩
    · rename_i hs
      have hl : s.sp.toNat < 16 := Nat.lt_of_le_of_ne hsp fun e => hs (BitVec.eq_of_toNat_eq e)
      rw [pushReturn_of_lt hl]; exact ⟨_, rfl⟩
  | ret =>
    simp only [exec, execRet]
    split
    · exact ⟨_, rfl⟩
    · rw [popReturn_of_entry (stackEntry_of_lt s (by omega))]; exact ⟨_, rfl⟩
  | drw | ldB | storeRegs | loadRegs =>
    simp only [exec, execDrw, execLdB, execStoreRegs, execLoadRegs]
    split <;> exact ⟨_, rfl⟩
  | ldVxK x => simp only [exec, execLdVxK]; split <;> exact ⟨_, rfl⟩
  | _ => exact ⟨_, rfl⟩

theorem step_answers {s : State} (hsp : s.sp.toNat ≤ 16) : ∃ t, step s = .next t := by
  unfold step
  split
  · exact ⟨_, rfl⟩
  · split
    · split
      · exact exec_answers hsp _
      · exact ⟨_, rfl⟩
    · exact ⟨_, rfl⟩

/-! ### Memory -/

theorem length_regBlock (s : State) (x : RegIdx) : (regBlock s x).length = x.val + 1 := by
  simp only [regBlock, List.length_take, Vector.length_toList]; omega

/-- The data of memory after an instruction: untouched, or bytes stored at `I` inside memory. -/
theorem exec_mem_cases {i : Instr} {s t : State} (h : exec i s = .next t) :
    t.mem = s.mem ∨ ∃ bs : List Byte, dataBase s + bs.length ≤ 4096 ∧
      t.mem = Memory.writeBytes s.mem (dataBase s) bs := by
  have skip : ∀ c, Host.Outcome.next (skipIf c s) =
      (Host.Outcome.next t : Host.Outcome State Fault Refusal) → t.mem = s.mem := by
    intro c h; cases h; cases c <;> rfl
  have store : ∀ bs : List Byte, bs.length ≠ 0 → dataInRange s bs.length = true →
      dataBase s + bs.length ≤ 4096 := by
    intro bs h0 hd
    have := dataInRange_iff.mp hd
    omega
  cases i with
  | ldB x =>
    obtain rfl | ⟨hd, rfl⟩ := guarded_cases h
    · exact .inl rfl
    · exact .inr ⟨bcdDigits (readV s x), store _ (Nat.succ_ne_zero 2) hd, rfl⟩
  | storeRegs x =>
    obtain rfl | ⟨hd, rfl⟩ := guarded_cases h
    · exact .inl rfl
    · rw [← length_regBlock s x] at hd
      exact .inr ⟨regBlock s x, store _ (by rw [length_regBlock]; omega) hd, rfl⟩
  | drw | loadRegs => obtain rfl | ⟨_, rfl⟩ := guarded_cases h <;> exact .inl rfl
  | call nnn => obtain rfl | ⟨_, rfl⟩ := exec_call_cases h <;> exact .inl rfl
  | ret => obtain rfl | ⟨_, _, _, rfl⟩ := exec_ret_cases h <;> exact .inl rfl
  | ldVxK x => obtain rfl | ⟨_, rfl⟩ := exec_ldVxK_cases h <;> exact .inl rfl
  | seByte | sneByte | seReg | sneReg | skp | sknp => exact .inl (skip _ h)
  | _ => cases h; exact .inl rfl

/-- An instruction keeps the canonical form of memory. -/
theorem exec_wf_mem {i : Instr} {s t : State} (hm : Memory.wf s.mem = true)
    (h : exec i s = .next t) : Memory.wf t.mem = true := by
  obtain he | ⟨bs, hlen, he⟩ := exec_mem_cases h
  · rw [he]; exact hm
  · rw [he]; exact Memory.wf_writeBytes hm hlen

/-- A tick keeps the canonical form of memory, since only an instruction writes memory. -/
theorem step_wf_mem {s t : State} (hm : Memory.wf s.mem = true) (h : step s = .next t) :
    Memory.wf t.mem = true := by
  obtain ⟨_, rfl⟩ | ⟨_, _, rfl⟩ | ⟨_, _, _, rfl⟩ | ⟨i, _, _, hx⟩ := step_cases h
  · exact hm
  · exact hm
  · exact hm
  · exact exec_wf_mem hm hx

/-! ### The registers that `Legal` bounds -/

theorem zextAddr_toNat (nnn : Addr12) : (zextAddr nnn).toNat = nnn.toNat :=
  BitVec.toNat_setWidth_of_le (by decide)

theorem zextByte_toNat (b : Byte) : (zextByte b).toNat = b.toNat :=
  BitVec.toNat_setWidth_of_le (by decide)

/-- The unreduced target of `JP V0` is at most 0xFFF + 0xFF, the bound of 10_state.md R23. -/
theorem zextAddr_add_zextByte_le (nnn : Addr12) (b : Byte) :
    (zextAddr nnn + zextByte b).toNat ≤ 0x10FE := by
  have ha : nnn.toNat < 4096 := nnn.isLt
  have hb : b.toNat < 256 := b.isLt
  rw [BitVec.toNat_add, zextAddr_toNat, zextByte_toNat]
  omega

theorem skipIf_pc_le {s : State} (hpc : s.pc.toNat ≤ 0xFFE) (c : Bool) :
    (skipIf c s).pc.toNat ≤ 0x1002 := by
  rw [skipIf_pc]
  split <;> simp only [BitVec.toNat_add, BitVec.reduceToNat] <;> omega

/-- 10_state.md R23: an instruction that was fetched leaves `PC` at most 0x10FE, whatever its way of
setting it. -/
theorem exec_pc_le {i : Instr} {s t : State} (hpc : s.pc.toNat ≤ 0xFFE)
    (hst : ∀ j a, stackEntry s j = some a → a.toNat ≤ 0x1000) (h : exec i s = .next t) :
    t.pc.toNat ≤ 0x10FE := by
  have kept : s.pc.toNat ≤ 0x10FE := by omega
  have advanced : (npc s).toNat ≤ 0x10FE := by rw [npc_toNat (by omega)]; omega
  have addr : ∀ nnn : Addr12, (zextAddr nnn).toNat ≤ 0x10FE := by
    intro nnn; rw [zextAddr_toNat]; omega
  have skip : ∀ c, Host.Outcome.next (skipIf c s) =
      (Host.Outcome.next t : Host.Outcome State Fault Refusal) → t.pc.toNat ≤ 0x10FE := by
    intro c h; cases h; exact Nat.le_trans (skipIf_pc_le hpc c) (by decide)
  cases i with
  | jp nnn => cases h; exact addr nnn
  | jpV0 nnn => cases h; exact zextAddr_add_zextByte_le nnn _
  | call nnn =>
    obtain rfl | ⟨_, rfl⟩ := exec_call_cases h
    · exact kept
    · exact addr nnn
  | ret =>
    obtain rfl | ⟨_, a, ha, rfl⟩ := exec_ret_cases h
    · exact kept
    · exact Nat.le_trans (hst _ a ha) (by decide)
  | ldVxK x =>
    obtain rfl | ⟨_, rfl⟩ := exec_ldVxK_cases h
    · exact kept
    · exact advanced
  | drw | ldB | storeRegs | loadRegs =>
    obtain rfl | ⟨_, rfl⟩ := guarded_cases h
    · exact kept
    · exact advanced
  | seByte | sneByte | seReg | sneReg | skp | sknp => exact skip _ h
  | _ => cases h; exact advanced

/-- `SP` stays at most 16: `CALL` pushes below 16 only, and `RET` pops above 0 only. -/
theorem exec_sp_le {i : Instr} {s t : State} (hsp : s.sp.toNat ≤ 16) (h : exec i s = .next t) :
    t.sp.toNat ≤ 16 := by
  by_cases hw : Part.sp ∈ writtenParts i
  · cases i with
    | call nnn =>
      obtain rfl | ⟨hl, rfl⟩ := exec_call_cases h
      · exact hsp
      · show (s.sp + 1).toNat ≤ 16
        bv_omega
    | ret =>
      obtain rfl | ⟨h0, a, _, rfl⟩ := exec_ret_cases h
      · exact hsp
      · show (s.sp - 1).toNat ≤ 16
        bv_omega
    | _ => simp [writtenParts] at hw
  · have he : t.sp = s.sp := exec_same h (by decide) hw
    rw [he]; exact hsp

/-- A stacked `npc` is at most 0x1000 (10_state.md R23), and only `CALL` writes the stack. -/
theorem exec_stackEntry_le {i : Instr} {s t : State} (hpc : s.pc.toNat ≤ 0xFFE)
    (hst : ∀ j a, stackEntry s j = some a → a.toNat ≤ 0x1000) (h : exec i s = .next t)
    (j : Nat) (a : Word) (ha : stackEntry t j = some a) : a.toNat ≤ 0x1000 := by
  by_cases hw : Part.stack ∈ writtenParts i
  · cases i with
    | call nnn =>
      obtain rfl | ⟨hl, rfl⟩ := exec_call_cases h
      · exact hst j a ha
      · rw [stackEntry_setPc, stackEntry_setSp, stackEntry_set] at ha
        split at ha
        · cases ha; rw [npc_toNat (by omega)]; omega
        · exact hst j a ha
    | _ => simp [writtenParts] at hw
  · have he : ∀ j, stackEntry t j = stackEntry s j := exec_same h (by decide) hw
    exact hst j a (by rw [← he]; exact ha)

/-! ### A tick keeps `Legal` -/

/-- A legal state that fetches another instruction than `LD Vx, K` is not waiting for a key. -/
theorem Legal.mode_ne_waitKey {s : State} {i : Instr} (hs : Legal s) (hi : FetchesInstr s i)
    (hne : ∀ x, i ≠ .ldVxK x) : s.mode ≠ .waitKey := by
  intro hw
  obtain ⟨_, _, x, hx⟩ := hs.waiting hw
  exact hne x (Except.ok.inj (hi.2.symm.trans hx))

/-- After an instruction a core waits only at the `LD Vx, K` that it has just run. -/
theorem exec_waiting {i : Instr} {s t : State} (hs : Legal s) (hf : s.fault = .noFault)
    (hi : FetchesInstr s i) (h : exec i s = .next t) (hw : t.mode = .waitKey) :
    t.fault = .noFault ∧ t.pc.toNat ≤ 0xFFE ∧ ∃ x, decodeWord (fetchWord t) = .ok (.ldVxK x) := by
  by_cases hm : Part.mode ∈ writtenParts i
  · cases i with
    | ldVxK x =>
      obtain rfl | ⟨_, rfl⟩ := exec_ldVxK_cases h
      · exact ⟨hf, hi.1, x, hi.2⟩
      · cases hw
    | _ => simp [writtenParts] at hm
  · have he : t.mode = s.mode := exec_same h (by decide) hm
    refine absurd (he.symm.trans hw) (hs.mode_ne_waitKey hi fun x hx => hm ?_)
    rw [hx]; simp [writtenParts]

theorem exec_legal {i : Instr} {s t : State} (hs : Legal s) (hf : s.fault = .noFault)
    (hi : FetchesInstr s i) (h : exec i s = .next t) : Legal t where
  sp := exec_sp_le hs.sp h
  pc := exec_pc_le hi.1 hs.stack h
  stack := exec_stackEntry_le hi.1 hs.stack h
  waiting := exec_waiting hs hf hi h
  mem := exec_wf_mem hs.mem h

/-- A fetch outside memory faults, and a waiting core fetches inside it. -/
theorem Legal.fetchFault {s : State} (hs : Legal s) (hpc : 0xFFE < s.pc.toNat) :
    Legal (setFault s .fetchOutOfRange) := by
  refine ⟨hs.sp, hs.pc, hs.stack, fun hw => ?_, hs.mem⟩
  obtain ⟨_, hle, _⟩ := hs.waiting hw
  exact absurd hpc (Nat.not_lt.mpr hle)

/-- An unknown word only advances, and the word at a waiting core is known. -/
theorem Legal.unknownOpcode {s : State} (hs : Legal s) (hpc : s.pc.toNat ≤ 0xFFE)
    {e : Reject} (he : decodeWord (fetchWord s) = .error e) :
    Legal (Machine.unknownOpcode s) := by
  refine ⟨hs.sp, ?_, hs.stack, fun hw => ?_, hs.mem⟩
  · show (npc s).toNat ≤ 0x10FE
    rw [npc_toNat (by omega)]; omega
  · obtain ⟨_, _, x, hx⟩ := hs.waiting hw
    cases he.symm.trans hx

theorem step_legal {s t : State} (hs : Legal s) (h : step s = .next t) : Legal t := by
  obtain ⟨_, rfl⟩ | ⟨_, hpc, rfl⟩ | ⟨_, hpc, ⟨e, he⟩, rfl⟩ | ⟨i, hf, hi, hx⟩ := step_cases h
  · exact hs
  · exact hs.fetchFault hpc
  · exact hs.unknownOpcode hpc he
  · exact exec_legal hs hf hi hx

/-! ### Reset and the host's operations keep `Legal` -/

theorem legal_reset : Legal State.reset where
  sp := by decide
  pc := by decide
  stack j a h := by
    obtain ⟨_, rfl⟩ : ∃ _ : j < 16, (0 : Word) = a := by
      simpa [stackEntry, State.reset, Vector.getElem?_replicate] using h
    decide
  waiting := by intro h; cases h
  mem := rfl

/-- Bytes stored inside memory keep a core legal that is not waiting for a key. -/
theorem Legal.writeBytes {s : State} (hs : Legal s) (hm : s.mode = .run) {a : Nat} {bs : List Byte}
    (ha : a + bs.length ≤ 4096) : Legal (Machine.writeBytes s a bs) where
  sp := hs.sp
  pc := hs.pc
  stack := hs.stack
  waiting hw := by cases hm.symm.trans hw
  mem := wf_writeBytes hs.mem ha

theorem legal_resetState (font : Config.FontTable) (s : State) : Legal (resetState font s) := by
  have h : Legal (initialState font) :=
    legal_reset.writeBytes rfl (by rw [Vector.length_toList]; decide)
  exact ⟨h.sp, h.pc, h.stack, h.waiting, h.mem⟩

theorem legal_loadState (font : Config.FontTable) (s : State) {rom : List Byte}
    (hrom : rom.length ≤ 3584) : Legal (loadState font s rom) := by
  have h := legal_resetState font s
  have hk : Legal (setKeys (resetState font s) s.key) := ⟨h.sp, h.pc, h.stack, h.waiting, h.mem⟩
  exact hk.writeBytes rfl (by show 512 + rom.length ≤ 4096; omega)

theorem hostStep_legal (font : Config.FontTable) {s : State} {op : HostOp} (hs : Legal s)
    (hop : ∀ k pressed, op = .setKey k pressed → k ≤ 15) :
    ∃ t r, hostStep font op s = .next (t, r) ∧ Legal t := by
  cases op with
  | new => exact ⟨_, _, rfl, legal_resetState font s⟩
  | reset => exact ⟨_, _, rfl, legal_resetState font s⟩
  | load rom =>
    simp only [hostStep]
    split
    · rename_i hfit; exact ⟨_, _, rfl, legal_loadState font s (imageFits_iff.mp hfit)⟩
    · exact ⟨_, _, rfl, hs⟩
  | tick =>
    obtain ⟨t, ht⟩ := step_answers hs.sp
    simp only [hostStep, ht]
    exact ⟨_, _, rfl, step_legal hs ht⟩
  | setKey k pressed =>
    have hk : k < 16 := Nat.lt_succ_of_le (hop k pressed rfl)
    simp only [hostStep, dif_pos hk]
    exact ⟨_, _, rfl, hs.sp, hs.pc, hs.stack, hs.waiting, hs.mem⟩
  | decrementTimers => exact ⟨_, _, rfl, hs.sp, hs.pc, hs.stack, hs.waiting, hs.mem⟩
  | framebufferView | delayTimer | soundTimer | readStatus => exact ⟨_, _, rfl, hs⟩

/-! ### The obligations -/

/-- Settles O46: a tick answers because `SP` is in its range, and each clause of `Legal` is kept. -/
theorem tickKeepsLegal : Obligations.TickKeepsLegal := by
  intro s hs
  obtain ⟨t, ht⟩ := step_answers hs.sp
  exact ⟨t, ht, step_legal hs ht⟩

/-- Settles O47, one host operation at a time. -/
theorem hostOpsKeepLegal : Obligations.HostOpsKeepLegal := fun font _ _ => hostStep_legal font

/-- Settles O48, by induction on the host's schedule. -/
theorem runsStayLegal : Obligations.RunsStayLegal := by
  intro font ops
  induction ops with
  | nil => intro s hs _; exact ⟨s, rfl, hs⟩
  | cons op ops ih =>
    intro s hs hops
    obtain ⟨t, r, ht, hlegal⟩ := hostStep_legal font hs (hops op List.mem_cons_self)
    simp only [runOps, ht]
    exact ih t hlegal fun o ho => hops o (List.mem_cons_of_mem op ho)

/-- Settles O49: every write of memory is range-checked (20_memory.md R66). -/
theorem tickKeepsMemoryCanonical : Obligations.TickKeepsMemoryCanonical := fun _ _ => step_wf_mem

/-- Settles O45. -/
theorem resetIsLegal : Obligations.ResetIsLegal := legal_reset

theorem initial_reset : Initial Config.defaultFont State.reset where
  v x := by simp [readV, State.reset]
  i := rfl
  pc := rfl
  sp := rfl
  stack j hj := by simp [stackEntry, State.reset, hj]
  dt := rfl
  st := rfl
  key k := by simp [keyDown, State.reset]
  fb p := FrameBuffer.pixel_clear p
  glyphs a := by rw [← initialState_default]; exact readMem_initialState_font _ a.isLt
  mem _ ha _ := Memory.unlisted_of_ge ha
  mode := rfl
  fault := rfl
  unk := rfl

/-- Settles O50: with the default `FONT` the initial state is `State.reset`, and `new` keeps the
counter of draws, here 0. -/
theorem resetIsInitialForDefaultFont : Obligations.ResetIsInitialForDefaultFont := by
  refine ⟨initial_reset, fun s hs => ?_⟩
  simp only [hostStep, resetState, initialState_default, hs]
  rfl

end Sys2Proof.Machine
end

section
/-! The range check of a data access and what a block store leaves in memory (20_memory.md R66, R72):
each memory instruction past 0xFFF faults, and a fetch sees the bytes just stored. -/

namespace Sys2Proof.Machine

/-- The access of a memory instruction, in range: the instruction does its work. -/
theorem guarded_of_le {s u : State} {len : Nat} (h : dataBase s + len - 1 ≤ 0xFFF) :
    (if dataInRange s len then .next u else raise .dataOutOfRange s) = .next u :=
  if_pos (dataInRange_iff.mpr (.inr h))

/-- The access of a memory instruction, not empty and past 0xFFF: the fault and nothing else. -/
theorem raises_of_guarded {i : Instr} {s u : State} {len : Nat}
    (hi : exec i s = if dataInRange s len then .next u else raise .dataOutOfRange s)
    (hlen : 1 ≤ len) (h : dataBase s + len - 1 > 0xFFF) : Raises i s .dataOutOfRange := by
  have hout : ¬ dataInRange s len = true := by
    rw [dataInRange_iff]; omega
  exact ⟨_, hi.trans (if_neg hout), raised_setFault _ s⟩

/-! ### The block store -/

theorem getElem?_regBlock (s : State) {j x : RegIdx} (h : j ≤ x) :
    (regBlock s x)[j.val]? = some (readV s j) := by
  have hj : j.val < x.val + 1 := Nat.lt_succ_of_le h
  simp [regBlock, readV, hj]

theorem exec_storeRegs_of_le {s : State} {x : RegIdx} (h : dataBase s + x.val ≤ 0xFFF) :
    exec (.storeRegs x) s = .next (advance (writeBytes s (dataBase s) (regBlock s x))) :=
  guarded_of_le h

/-- The byte that a block store leaves at `I + j` (42_index_memory.md R175). -/
theorem readMem_storeBlock (s : State) {j x : RegIdx} (h : j ≤ x) :
    readMem (advance (writeBytes s (dataBase s) (regBlock s x))) (dataBase s + j.val) = readV s j :=
  readMem_writeBytes_inside s _ _ (getElem?_regBlock s h)

/-! ### The obligations -/

/-- Settles O14: the store and the fetch share one memory (20_memory.md R72), and the two fetched bytes
are the stored `V[j]` and `V[j + 1]`. -/
theorem storeIsSeenByNextFetch : Obligations.StoreIsSeenByNextFetch := by
  intro s x j k hx hk hkj hpc
  have hj : j ≤ x := Nat.le_trans (by omega : j.val ≤ k.val) hk
  have hpc' : dataBase s + k.val = (s.pc + 2).toNat + 1 := by omega
  refine ⟨_, exec_storeRegs_of_le hx, ?_⟩
  rw [fetchWord, advance_pc]
  show wordOfBytes (readMem _ (s.pc + 2).toNat) (readMem _ ((s.pc + 2).toNat + 1)) = _
  rw [← hpc', ← hpc, readMem_storeBlock s hj, readMem_storeBlock s hk]

/-- Settles O38: the three instructions share one range check. -/
theorem dataOutOfRangeFaults : Obligations.DataOutOfRangeFaults := by
  intro s x y n
  refine ⟨fun h => ?_, fun h => ?_, fun hn h => ?_⟩
  · exact raises_of_guarded (len := x.val + 1) rfl (by omega) h
  · exact raises_of_guarded (len := x.val + 1) rfl (by omega) h
  · exact raises_of_guarded (len := n.val) rfl hn h

end Sys2Proof.Machine
end

section
/-! The decoder and the encoder are inverse to each other (30_encoding.md R94, R95), and the decoder
agrees with the opcode map and with the list of unknown words (R98). In a `split` of `decodeWord` the
case `h_k` is category `k - 1`; the last, `h_16`, is the decoder's default, category 0xF. -/

namespace Sys2Proof

/-! ### The words of `SYS` -/

/-- A word of category 0 is a `SYS` word exactly when its term is well-formed. -/
theorem wf_sys_iff {nnn : Addr12} :
    (Instr.sys nnn).wf = true ↔ encodeA 0x0#4 nnn ≠ 0x00E0#16 ∧ encodeA 0x0#4 nnn ≠ 0x00EE#16 := by
  simp [Instr.wf, sysIsCls, sysIsRet, ← BitVec.toNat_inj, encodeA_toNat]

/-! ### Decoding the encoding -/

@[simp] theorem toFin_nibbleBits (k : Fin 16) : (nibbleBits k).toFin = k := rfl

theorem decodeWord_encode {i : Instr} (h : i.wf = true) : decodeWord (encode i) = .ok i := by
  cases i with
  | cls | ret => rfl
  | sys nnn =>
    obtain ⟨hcls, hret⟩ := wf_sys_iff.mp h
    simp [encode, decodeWord, hcls, hret]
  | jp | call | ldI | jpV0 | seByte | sneByte | ldByte | addByte | rnd => simp [encode, decodeWord]
  | seReg | sneReg => simp [encode, decodeWord]
  | drw => simp [encode, decodeWord]
  | ldReg | orReg | andReg | xorReg | addReg | subReg | shr | subnReg | shl =>
    simp [encode, decodeWord, decode8]
  | skp | sknp => simp [encode, decodeWord, decodeE]
  | ldVxDt | ldVxK | ldDtVx | ldStVx | addI | ldF | ldB | storeRegs | loadRegs =>
    simp [encode, decodeWord, decodeF]

/-! ### A word put together again from its fields -/

section recompose
variable {op : Word} {c : BitVec 4}

theorem encodeA_fields (hc : (fieldCategory op).val = c.toNat) : encodeA c (fieldNnn op) = op := by
  rw [fieldCategory_val] at hc
  apply BitVec.eq_of_toNat_eq
  rw [encodeA_toNat, fieldNnn_toNat]
  omega

theorem encodeXK_fields (hc : (fieldCategory op).val = c.toNat) :
    encodeXK c (fieldX op) (fieldKk op) = op := by
  rw [fieldCategory_val] at hc
  apply BitVec.eq_of_toNat_eq
  rw [encodeXK_toNat, fieldX_val, fieldKk_toNat]
  omega

theorem encodeXYN_fields (hc : (fieldCategory op).val = c.toNat) :
    encodeXYN c (fieldX op) (fieldY op) (nibbleBits (fieldN op)) = op := by
  rw [fieldCategory_val] at hc
  apply BitVec.eq_of_toNat_eq
  rw [encodeXYN_toNat, fieldX_val, fieldY_val, nibbleBits_toNat, fieldN_val]
  omega

/-- Format `XF`: the function byte is a constant. -/
theorem encodeXK_fieldX {kk : Byte} (hc : (fieldCategory op).val = c.toNat)
    (hk : (fieldKk op).toNat = kk.toNat) : encodeXK c (fieldX op) kk = op := by
  rw [← BitVec.eq_of_toNat_eq hk, encodeXK_fields hc]

/-- Format `XY`: the function nibble is a constant. -/
theorem encodeXYN_fieldXY {n : BitVec 4} (hc : (fieldCategory op).val = c.toNat)
    (hn : (fieldN op).val = n.toNat) : encodeXYN c (fieldX op) (fieldY op) n = op := by
  rw [← (BitVec.eq_of_toNat_eq hn : nibbleBits (fieldN op) = n), encodeXYN_fields hc]

end recompose

/-! ### Encoding what was decoded -/

theorem encode_of_decode8 {op : Word} {i : Instr} (hc : (fieldCategory op).val = 0x8)
    (h : decode8 op = .ok i) : i.wf = true ∧ encode i = op := by
  unfold decode8 at h
  split at h <;> cases h <;> exact ⟨rfl, encodeXYN_fieldXY hc ‹_›⟩

theorem encode_of_decodeE {op : Word} {i : Instr} (hc : (fieldCategory op).val = 0xE)
    (h : decodeE op = .ok i) : i.wf = true ∧ encode i = op := by
  unfold decodeE at h
  split at h <;> cases h <;> exact ⟨rfl, encodeXK_fieldX hc ‹_›⟩

theorem encode_of_decodeF {op : Word} {i : Instr} (hc : (fieldCategory op).val = 0xF)
    (h : decodeF op = .ok i) : i.wf = true ∧ encode i = op := by
  unfold decodeF at h
  split at h <;> cases h <;> exact ⟨rfl, encodeXK_fieldX hc ‹_›⟩

/-- Category 0: two exact words, and every other word is a `SYS`. -/
theorem encode_of_category0 {op : Word} {i : Instr} (hc : (fieldCategory op).val = 0x0)
    (h : (if op = 0x00E0#16 then .ok .cls else if op = 0x00EE#16 then .ok .ret
      else .ok (.sys (fieldNnn op)) : Except Reject Instr) = .ok i) :
    i.wf = true ∧ encode i = op := by
  by_cases hcls : op = 0x00E0#16
  · rw [if_pos hcls] at h; cases h; exact ⟨rfl, hcls.symm⟩
  · by_cases hret : op = 0x00EE#16
    · rw [if_neg hcls, if_pos hret] at h; cases h; exact ⟨rfl, hret.symm⟩
    · have he : encodeA 0x0#4 (fieldNnn op) = op := encodeA_fields hc
      rw [if_neg hcls, if_neg hret] at h; cases h
      exact ⟨wf_sys_iff.mpr (by rw [he]; exact ⟨hcls, hret⟩), he⟩

/-- Categories 5 and 9: the function nibble is 0, or the word is unknown. -/
theorem guardedN_eq_ok {op : Word} {i j : Instr} {e : Reject}
    (h : (if fieldN op = 0 then .ok j else .error e : Except Reject Instr) = .ok i) :
    (fieldN op).val = 0 ∧ i = j := by
  split at h
  · rename_i hn; cases h; exact ⟨congrArg Fin.val hn, rfl⟩
  · cases h

/-- Decoding drops no bit: the category, the fields and the fixed function bits make up the word. -/
theorem encode_of_decodeWord {op : Word} {i : Instr} (h : decodeWord op = .ok i) :
    i.wf = true ∧ encode i = op := by
  unfold decodeWord at h
  split at h
  case h_1 hc => exact encode_of_category0 hc h
  case h_2 hc | h_3 hc | h_11 hc | h_12 hc => cases h; exact ⟨rfl, encodeA_fields hc⟩
  case h_4 hc | h_5 hc | h_7 hc | h_8 hc | h_13 hc => cases h; exact ⟨rfl, encodeXK_fields hc⟩
  case h_6 hc | h_10 hc =>
    obtain ⟨hn, rfl⟩ := guardedN_eq_ok h
    exact ⟨rfl, encodeXYN_fieldXY hc hn⟩
  case h_9 hc => exact encode_of_decode8 hc h
  case h_14 hc => cases h; exact ⟨rfl, encodeXYN_fields hc⟩
  case h_15 hc => exact encode_of_decodeE hc h
  case h_16 => exact encode_of_decodeF (by grind) h

/-! ### The rows of the opcode map -/

/-- Every encoding has the fixed bits of its row, whatever its fields. -/
theorem encode_and_rowMask (i : Instr) : encode i &&& rowMask i = rowMatch i := by
  cases i with
  | cls => exact Laws.EncodeMatchesRow.cls
  | ret => exact Laws.EncodeMatchesRow.ret
  | sys | jp | call | ldI | jpV0 => exact Laws.EncodeMatchesRow.ofA _ _ rfl
  | seByte | sneByte | ldByte | addByte | rnd => exact Laws.EncodeMatchesRow.ofXK _ _ _ rfl
  | drw => exact Laws.EncodeMatchesRow.ofXYN _ _ _ _ rfl
  | seReg | ldReg | orReg | andReg | xorReg | addReg | subReg | shr | subnReg | shl | sneReg =>
    exact Laws.EncodeMatchesRow.ofXY _ _ _ _ rfl
  | skp | sknp | ldVxDt | ldVxK | ldDtVx | ldStVx | addI | ldF | ldB | storeRegs | loadRegs =>
    exact Laws.EncodeMatchesRow.ofXF _ _ _ rfl

section rows
variable {op r : Word}

theorem fields_of_and_F000 (h : op &&& 0xF000#16 = r) :
    (fieldCategory op).val = r.toNat / 4096 := by
  rw [← h, and_F000]; omega

theorem fields_of_and_F00F (h : op &&& 0xF00F#16 = r) :
    (fieldCategory op).val = r.toNat / 4096 ∧ (fieldN op).val = r.toNat % 16 := by
  rw [← h, and_F00F, fieldN_val]; omega

theorem fields_of_and_F0FF (h : op &&& 0xF0FF#16 = r) :
    (fieldCategory op).val = r.toNat / 4096 ∧ (fieldKk op).toNat = r.toNat % 256 := by
  rw [← h, and_F0FF, fieldKk_toNat]; omega

end rows

/-- A word with the fixed bits of a row decodes to an instruction of the row: the mask gives the fields
that the decoder branches on. -/
theorem decodeWord_of_row {op : Word} {i : Instr} (h : op &&& rowMask i = rowMatch i)
    (hsys : (∃ nnn, i = .sys nnn) → op ≠ 0x00E0#16 ∧ op ≠ 0x00EE#16) :
    ∃ j, decodeWord op = .ok j ∧ rowMask j = rowMask i ∧ rowMatch j = rowMatch i := by
  cases i with
  | cls | ret =>
    obtain rfl := (BitVec.and_allOnes (x := op)).symm.trans h
    exact ⟨_, rfl, rfl, rfl⟩
  | sys nnn =>
    obtain ⟨hcls, hret⟩ := hsys ⟨nnn, rfl⟩
    have hc := fields_of_and_F000 h
    simp [decodeWord, hc, hcls, hret, rowMask, rowMatch]
  | jp | call | ldI | jpV0 | seByte | sneByte | ldByte | addByte | rnd | drw =>
    have hc := fields_of_and_F000 h
    simp [decodeWord, hc, rowMask, rowMatch]
  | seReg | sneReg =>
    obtain ⟨hc, hn⟩ := fields_of_and_F00F h
    simp [decodeWord, hc, Fin.ext_iff, hn, rowMask, rowMatch]
  | ldReg | orReg | andReg | xorReg | addReg | subReg | shr | subnReg | shl =>
    obtain ⟨hc, hn⟩ := fields_of_and_F00F h
    simp [decodeWord, decode8, hc, hn, rowMask, rowMatch]
  | skp | sknp =>
    obtain ⟨hc, hk⟩ := fields_of_and_F0FF h
    simp [decodeWord, decodeE, hc, hk, rowMask, rowMatch]
  | ldVxDt | ldVxK | ldDtVx | ldStVx | addI | ldF | ldB | storeRegs | loadRegs =>
    obtain ⟨hc, hk⟩ := fields_of_and_F0FF h
    simp [decodeWord, decodeF, hc, hk, rowMask, rowMatch]

/-! ### The unknown words -/

theorem decode8_error_iff (op : Word) : (∃ e, decode8 op = .error e) ↔
    (fieldN op).val ∈ [8, 9, 0xA, 0xB, 0xC, 0xD, 0xF] := by
  have hlt : (fieldN op).val < 16 := (fieldN op).isLt
  unfold decode8
  split
  case h_10 => grind
  all_goals simp [*]

theorem decodeE_error_iff (op : Word) : (∃ e, decodeE op = .error e) ↔
    (fieldKk op).toNat ∉ [0x9E, 0xA1] := by
  unfold decodeE
  split <;> simp_all

theorem decodeF_error_iff (op : Word) : (∃ e, decodeF op = .error e) ↔
    (fieldKk op).toNat ∉ [0x07, 0x0A, 0x15, 0x18, 0x1E, 0x29, 0x33, 0x55, 0x65] := by
  unfold decodeF
  split <;> simp_all

/-- Categories 5 and 9: unknown exactly when the function nibble is not 0. -/
theorem guardedN_error_iff (op : Word) (j : Instr) (e : Reject) :
    (∃ e', (if fieldN op = 0 then .ok j else .error e : Except Reject Instr) = .error e') ↔
      (fieldN op).val ≠ 0 := by
  by_cases hn : fieldN op = 0 <;> simp [hn]

/-- Only five categories can reject a word. -/
theorem decodeWord_error_iff (op : Word) : (∃ e, decodeWord op = .error e) ↔
    ((fieldCategory op).val = 5 ∧ (fieldN op).val ≠ 0) ∨
    ((fieldCategory op).val = 8 ∧ (fieldN op).val ∈ [8, 9, 0xA, 0xB, 0xC, 0xD, 0xF]) ∨
    ((fieldCategory op).val = 9 ∧ (fieldN op).val ≠ 0) ∨
    ((fieldCategory op).val = 0xE ∧ (fieldKk op).toNat ∉ [0x9E, 0xA1]) ∨
    ((fieldCategory op).val = 0xF ∧
      (fieldKk op).toNat ∉ [0x07, 0x0A, 0x15, 0x18, 0x1E, 0x29, 0x33, 0x55, 0x65]) := by
  rw [← decode8_error_iff, ← decodeE_error_iff, ← decodeF_error_iff]
  unfold decodeWord
  split
  case h_1 hc =>
    simp only [hc]
    split
    · simp
    · split <;> simp
  case h_6 hc | h_10 hc => simp [hc, guardedN_error_iff]
  case h_16 =>
    have hc : (fieldCategory op).val = 0xF := by grind
    simp [hc]
  case h_2 hc | h_3 hc | h_4 hc | h_5 hc | h_7 hc | h_8 hc | h_9 hc | h_11 hc | h_12 hc | h_13 hc
    | h_14 hc | h_15 hc => simp [hc]

/-! ### The obligations -/

/-- Settles O15, one instruction at a time. -/
theorem decodeOfEncode : Obligations.DecodeOfEncode := fun _ => decodeWord_encode

/-- Settles O16, one category at a time. -/
theorem encodeOfDecode : Obligations.EncodeOfDecode := fun _ _ => encode_of_decodeWord

/-- Settles O17: a decoded word is an encoding, and an encoding has the bits of its row; for the other
direction the mask of a row gives the fields that the decoder branches on. -/
theorem decoderFollowsTheOpcodeMap : Obligations.DecoderFollowsTheOpcodeMap := by
  refine ⟨fun op i h => ?_, fun op i => decodeWord_of_row⟩
  obtain ⟨_, rfl⟩ := encode_of_decodeWord h
  exact encode_and_rowMask i

/-- Settles O18, one category at a time. -/
theorem unknownWordsAreTheFivePatterns : Obligations.UnknownWordsAreTheFivePatterns := by
  intro op
  simpa only [fieldCategory_val, fieldN_val, fieldKk_toNat] using decodeWord_error_iff op

/-- Settles O19. -/
theorem specWordsDecode : Obligations.SpecWordsDecode :=
  ⟨rfl, rfl, rfl, rfl, rfl, rfl, rfl, rfl, rfl⟩

end Sys2Proof
end

section
/-! Control transfer and skips (40_control_flow.md R120 to R129), and the run through zeroed memory,
whose words are all `SYS 0` (R120, 60_exceptions.md R253). -/

namespace Sys2Proof.Machine

/-! ### Jumps and skips -/

/-- The target of `JP V0` as a number: the sum cannot wrap (40_control_flow.md R125). -/
theorem zextAddr_add_zextByte_toNat (nnn : Addr12) (b : Byte) :
    (zextAddr nnn + zextByte b).toNat = nnn.toNat + b.toNat := by
  rw [BitVec.toNat_add, zextAddr_toNat, zextByte_toNat]
  omega

/-- An instruction that is a `skipIf` skips when the condition that its `Bool` stands for holds. -/
theorem skipsWhen_of_skipIf {i : Instr} {s : State} {c : Bool} {cond : Prop}
    (hi : exec i s = .next (skipIf c s)) (hc : c = true ↔ cond) : SkipsWhen i s cond := by
  refine ⟨_, hi, fun h => ?_, fun h => ?_, onlyChanges_skipIf c s⟩
  · rw [skipIf_pc, if_pos (hc.mpr h)]
  · rw [skipIf_pc, if_neg (mt hc.mp h)]

theorem beq_iff_toNat_eq (a b : Byte) : (a == b) = true ↔ a.toNat = b.toNat := by
  rw [beq_iff_eq, BitVec.toNat_inj]

theorem bne_iff_toNat_ne (a b : Byte) : (a != b) = true ↔ a.toNat ≠ b.toNat := by
  rw [bne_iff_ne, BitVec.toNat_ne_iff_ne]

/-! ### The call and the return -/

/-- `CALL`, where the stack has room. -/
theorem exec_call_of_lt {s : State} (h : s.sp.toNat < 16) (nnn : Addr12) :
    exec (.call nnn) s = .next (setPc (setSp (setStack s (s.stack.set s.sp.toNat (npc s) h))
      (s.sp + 1)) (zextAddr nnn)) := by
  have hne : s.sp ≠ 16 := by bv_omega
  simp only [exec, execCall, if_neg hne, pushReturn_of_lt h]

/-- `RET`, where the stack has a top entry. -/
theorem exec_ret_of_entry {s : State} {a : Word} (h : 0 < s.sp.toNat)
    (ha : stackEntry s (s.sp.toNat - 1) = some a) :
    exec .ret s = .next (setPc (setSp s (s.sp - 1)) a) := by
  have hne : s.sp ≠ 0 := by bv_omega
  simp only [exec, execRet, if_neg hne, popReturn_of_entry ha]

/-! ### The tick, where it runs an instruction and where its fetch faults -/

theorem step_of_fetchesInstr {s : State} {i : Instr} (hf : s.fault = .noFault)
    (hi : FetchesInstr s i) : step s = exec i s := by
  obtain ⟨hpc, hd⟩ := hi
  simp [step, not_halted_iff.mpr hf, fetchable_iff.mpr hpc, fetchWord, hd]

theorem step_of_pc_gt {s : State} (hf : s.fault = .noFault) (hpc : 0xFFE < s.pc.toNat) :
    step s = .next (setFault s .fetchOutOfRange) := by
  have hp : ¬ fetchable s = true := mt fetchable_iff.mp (Nat.not_le.mpr hpc)
  simp [step, not_halted_iff.mpr hf, hp, raise]

/-! ### Runs -/

/-- A run that reached its end goes on from there. -/
theorem runOps_append {font : Config.FontTable} {ops : List HostOp} {s t : State}
    (h : runOps font ops s = .next t) (ops' : List HostOp) :
    runOps font (ops ++ ops') s = runOps font ops' t := by
  induction ops generalizing s with
  | nil => cases h; rfl
  | cons op ops ih =>
    rw [List.cons_append, runOps]
    rw [runOps] at h
    cases ho : hostStep font op s with
    | next p => rw [ho] at h; exact ih h
    | fault f => rw [ho] at h; cases h
    | refused r => rw [ho] at h; cases h

/-- One tick more at the end of a run of ticks. -/
theorem runOps_ticks_succ {font : Config.FontTable} {k : Nat} {s t u : State}
    (h : runOps font (List.replicate k .tick) s = .next t) (hu : step t = .next u) :
    runOps font (List.replicate (k + 1) .tick) s = .next u := by
  rw [List.replicate_succ', runOps_append h]
  simp only [runOps, hostStep, hu]

theorem runOps_reset (font : Config.FontTable) (ops : List HostOp) (s : State) :
    runOps font (.reset :: ops) s = runOps font ops (resetState font s) := rfl

/-! ### Zeroed memory -/

/-- The word 0 is `SYS 0`, so that a tick at it only advances. -/
theorem step_of_zero {s : State} (hf : s.fault = .noFault) (hpc : s.pc.toNat ≤ 0xFFE)
    (hhi : readMem s s.pc.toNat = 0) (hlo : readMem s (s.pc.toNat + 1) = 0) :
    step s = .next (advance s) := by
  have hi : FetchesInstr s (.sys 0) := ⟨hpc, by rw [hhi, hlo]; rfl⟩
  exact step_of_fetchesInstr hf hi

/-- Ticks inside zeroed memory: no tick writes memory, so that the next one is in zeroed memory too. -/
theorem runOps_ticks_of_zero (font : Config.FontTable) {s : State} (hf : s.fault = .noFault)
    (hz : ∀ a, s.pc.toNat ≤ a → a < 4096 → readMem s a = 0) {k : Nat}
    (hk : s.pc.toNat + 2 * k ≤ 0x1000) :
    ∃ t, runOps font (List.replicate k .tick) s = .next t ∧ t.pc.toNat = s.pc.toNat + 2 * k ∧
      OnlyChanges [.pc] s t := by
  induction k with
  | zero => exact ⟨s, rfl, rfl, (OnlyChanges.refl s).mono (by simp)⟩
  | succ k ih =>
    obtain ⟨t, hrun, hpc, hc⟩ := ih (by omega)
    have hfault : t.fault = s.fault := hc .fault (by decide)
    have hmem : ∀ a, readMem t a = readMem s a := hc .mem (by decide)
    have hstep : step t = .next (advance t) := by
      refine step_of_zero (hfault.trans hf) (by omega) ?_ ?_
      · rw [hmem]; exact hz _ (by omega) (by omega)
      · rw [hmem]; exact hz _ (by omega) (by omega)
    have hnpc : (npc t).toNat = t.pc.toNat + 2 := npc_toNat (by omega)
    refine ⟨advance t, runOps_ticks_succ hrun hstep, ?_,
      (hc.trans (onlyChanges_advance t)).mono (by simp)⟩
    show (npc t).toNat = _
    omega

/-- After a reset memory is zeroed from `PROG_BASE` on, whatever the `FONT`. -/
theorem readMem_resetState_above (font : Config.FontTable) (s : State) {a : Nat} (h : 80 ≤ a) :
    readMem (resetState font s) a = 0 :=
  readMem_initialState_above font h

/-! ### The obligations -/

/-- Settles O20: `SYS` is `advance`. -/
theorem sysIsANoOp : Obligations.SysIsANoOp := fun s _ =>
  ⟨advance s, rfl, advance_pc s, onlyChanges_advance s⟩

/-- Settles O21: a 12-bit address plus a byte fits into 16 bits. -/
theorem jumpsOverwritePc : Obligations.JumpsOverwritePc := fun s nnn =>
  ⟨⟨_, rfl, zextAddr_toNat nnn, onlyChanges_setPc s _⟩,
    ⟨_, rfl, zextAddr_add_zextByte_toNat nnn _, onlyChanges_setPc s _⟩⟩

/-- Settles O22: below 16 the push does not wrap `SP`. -/
theorem callPushesReturnAddress : Obligations.CallPushesReturnAddress := by
  intro s nnn h
  refine ⟨_, exec_call_of_lt h nnn, ?_, fun j hj => ?_, ?_, zextAddr_toNat nnn,
    ((onlyChanges_setStack s _).trans (onlyChanges_setSp _ _)).trans (onlyChanges_setPc _ _)⟩
  · rw [stackEntry_setPc, stackEntry_setSp, stackEntry_set, if_pos rfl, npc]
  · rw [stackEntry_setPc, stackEntry_setSp, stackEntry_set, if_neg hj]
  · rw [setPc_sp, setSp_sp]
    bv_omega

/-- Settles O23: with `SP` from 1 to 16 there is a top entry. -/
theorem retPopsReturnAddress : Obligations.RetPopsReturnAddress := by
  intro s h0 h16
  have htop := stackEntry_of_lt s (j := s.sp.toNat - 1) (by omega)
  refine ⟨_, exec_ret_of_entry h0 htop, htop, ?_,
    (onlyChanges_setSp s _).trans (onlyChanges_setPc _ _)⟩
  rw [setPc_sp, setSp_sp]
  bv_omega

/-- Settles O25: the entry that `RET` pops is the one that `CALL` pushed. -/
theorem retReturnsAfterCall : Obligations.RetReturnsAfterCall := by
  intro s t u nnn hlt hcall husp hustack
  obtain ⟨t', ht', hpushed, _, htsp, _, _⟩ := callPushesReturnAddress s nnn hlt
  obtain rfl : t = t' := Host.Outcome.next.inj (hcall.symm.trans ht')
  have hsp : u.sp.toNat = s.sp.toNat + 1 := by rw [husp, htsp]
  obtain ⟨w, hret, hpopped, hwsp, _⟩ := retPopsReturnAddress u (by omega) (by omega)
  rw [hsp, Nat.add_sub_cancel] at hpopped hwsp
  rw [hustack _ hlt, hpushed] at hpopped
  exact ⟨w, hret, (Option.some.inj hpopped).symm, BitVec.eq_of_toNat_eq hwsp⟩

/-- Settles O26: each of the four is a `skipIf` on a comparison of bytes. -/
theorem comparisonSkips : Obligations.ComparisonSkips := fun _ _ _ _ =>
  ⟨skipsWhen_of_skipIf rfl (beq_iff_toNat_eq _ _), skipsWhen_of_skipIf rfl (bne_iff_toNat_ne _ _),
    skipsWhen_of_skipIf rfl (beq_iff_toNat_eq _ _), skipsWhen_of_skipIf rfl (bne_iff_toNat_ne _ _)⟩

/-- Settles O13, by induction on the number of ticks; the tick after them fetches past 0xFFE. -/
theorem zeroedMemoryRunsAsNoOps : Obligations.ZeroedMemoryRunsAsNoOps := by
  intro font
  refine ⟨fun s k hf hz hk => ?_, fun s => ?_⟩
  · obtain ⟨t, hrun, hpc, hc⟩ := runOps_ticks_of_zero font hf hz hk
    have hfault : t.fault = .noFault := Eq.trans (hc .fault (by decide)) hf
    refine ⟨⟨t, hrun, hpc, hc⟩, fun hend => ?_⟩
    exact ⟨_, runOps_ticks_succ hrun (step_of_pc_gt hfault (by omega)), rfl, hpc,
      hc.trans (onlyChanges_setFault t _)⟩
  · have hf : (resetState font s).fault = .noFault := rfl
    have hpc : (resetState font s).pc.toNat = 0x200 := rfl
    have hz : ∀ a, (resetState font s).pc.toNat ≤ a → a < 4096 →
        readMem (resetState font s) a = 0 := fun a ha _ => readMem_resetState_above font s (by omega)
    obtain ⟨t, hrun, ht, hc⟩ := runOps_ticks_of_zero font hf hz (k := 1792) (by omega)
    rw [runOps_reset]
    exact ⟨t, hrun, by omega, Eq.trans (hc .fault (by decide)) hf⟩

end Sys2Proof.Machine
end

section
/-! The register instructions (41_alu.md): the results and flags of `Flags.lean` as numbers, and the two
shapes in which they are written back, `V[x]` alone and `V[x]` with the flag after it. -/

namespace Sys2Proof.Machine

/-! ### Results and flags as numbers (41_alu.md R152) -/

theorem addResult_toNat (a b : Byte) : (addResult a b).toNat = (a.toNat + b.toNat) % 256 :=
  BitVec.toNat_ofNat _ _

theorem subResult_toNat (a b : Byte) : (subResult a b).toNat = (a.toNat + 256 - b.toNat) % 256 :=
  BitVec.toNat_ofNat _ _

theorem shrResult_toNat (a : Byte) : (shrResult a).toNat = a.toNat / 2 := by
  rw [shrResult, BitVec.toNat_ushiftRight, Nat.shiftRight_one]

theorem shlResult_toNat (a : Byte) : (shlResult a).toNat = 2 * a.toNat % 256 := by
  rw [shlResult, BitVec.toNat_shiftLeft, Nat.shiftLeft_eq, Nat.pow_one, Nat.mul_comm]

theorem addCarry_iff (a b : Byte) : addCarry a b = true ↔ a.toNat + b.toNat > 255 := decide_eq_true_iff

theorem subNoBorrow_iff (a b : Byte) : subNoBorrow a b = true ↔ a.toNat ≥ b.toNat := decide_eq_true_iff

theorem shrOut_iff (a : Byte) : shrOut a = true ↔ a.toNat % 2 = 1 := by
  rw [shrOut, BitVec.getLsbD, Nat.testBit_zero, decide_eq_true_iff]

theorem shlOut_iff (a : Byte) : shlOut a = true ↔ a.toNat ≥ 128 := by
  have hlt : a.toNat < 256 := a.isLt
  rw [shlOut, BitVec.getLsbD, Nat.testBit_eq_decide_div_mod_eq, decide_eq_true_iff]
  omega

/-! ### The two write-backs -/

theorem regsKeptBut_writeV (s : State) (x : RegIdx) (b : Byte) : RegsKeptBut [x] s (writeV s x b) :=
  fun _ hj => readV_writeV_of_ne s (List.ne_of_not_mem_cons hj) b

theorem onlyChanges_advance_writeV (s : State) (x : RegIdx) (b : Byte) :
    OnlyChanges [.v, .pc] s (advance (writeV s x b)) :=
  (onlyChanges_writeV s x b).trans (onlyChanges_advance _)

/-- An instruction that writes one register and advances. -/
theorem writesReg_of_writeV {i : Instr} {s : State} {x : RegIdx} {b : Byte} {r : Nat}
    (he : exec i s = .next (advance (writeV s x b))) (hr : b.toNat = r) : WritesReg i s x r :=
  ⟨_, he, (congrArg BitVec.toNat (readV_writeV_same s x b)).trans hr, regsKeptBut_writeV s x b,
    advance_pc _, onlyChanges_advance_writeV s x b⟩

/-- An instruction that writes its result, then its flag, and advances: the flag is the later write and
so wins when `x = 15` (41_alu.md R153). -/
theorem writesRegAndFlag_of_writeResultFlag {i : Instr} {s : State} {x : RegIdx} {b : Byte} {f : Bool}
    {r : Nat} {flag : Prop} (he : exec i s = .next (writeResultFlag s x b f)) (hr : b.toNat = r)
    (hf : f = true ↔ flag) : WritesRegAndFlag i s x r flag := by
  refine ⟨_, he, fun hx => ?_, fun h => ?_, fun h => ?_, fun j hj => ?_, advance_pc _,
    onlyChanges_writeResultFlag s x b f⟩
  · rw [readV_writeResultFlag, if_neg hx, if_pos rfl, hr]
  · rw [readV_writeResultFlag, if_pos rfl, if_pos (hf.mpr h)]
  · rw [readV_writeResultFlag, if_pos rfl, if_neg (mt hf.mp h)]
  · obtain ⟨hx, hvf⟩ : j ≠ x ∧ j ≠ vf := by simpa using hj
    rw [readV_writeResultFlag, if_neg hvf, if_neg hx]

/-! ### The obligations -/

/-- Settles O30: each writes back its result and then its flag, both computed from the old values. -/
theorem sumAndDifferencesSetFlag : Obligations.SumAndDifferencesSetFlag := fun _ _ _ =>
  ⟨writesRegAndFlag_of_writeResultFlag rfl (addResult_toNat _ _) (addCarry_iff _ _),
    writesRegAndFlag_of_writeResultFlag rfl (subResult_toNat _ _) (subNoBorrow_iff _ _),
    writesRegAndFlag_of_writeResultFlag rfl (subResult_toNat _ _) (subNoBorrow_iff _ _)⟩

/-- Settles O28: each writes the byte it loads to one register. -/
theorem registerLoads : Obligations.RegisterLoads := fun _ _ _ _ =>
  ⟨writesReg_of_writeV rfl rfl, writesReg_of_writeV rfl rfl, writesReg_of_writeV rfl rfl⟩

/-- Settles O29: each writes its result to one register. -/
theorem flaglessArithmetic : Obligations.FlaglessArithmetic := fun _ _ _ _ =>
  ⟨writesReg_of_writeV rfl (addResult_toNat _ _), writesReg_of_writeV rfl (BitVec.toNat_or _ _),
    writesReg_of_writeV rfl (BitVec.toNat_and _ _), writesReg_of_writeV rfl (BitVec.toNat_xor _ _)⟩

/-- Settles O31: no read of `V[y]` enters the result or the flag. -/
theorem shiftsSetFlag : Obligations.ShiftsSetFlag := fun _ _ _ =>
  ⟨writesRegAndFlag_of_writeResultFlag rfl (shrResult_toNat _) (shrOut_iff _),
    writesRegAndFlag_of_writeResultFlag rfl (shlResult_toNat _) (shlOut_iff _)⟩

/-- Settles O32: the byte is named by the counter before the draw (log entry 2). -/
theorem rndMasksOneDraw : Obligations.RndMasksOneDraw := by
  intro s x kk
  have hread : readV (writeV (consumeRand s) x (randByte s &&& kk)) x = randByte s &&& kk :=
    readV_writeV_same _ _ _
  refine ⟨_, rfl, hread, ?_, rfl, regsKeptBut_writeV (consumeRand s) x _, advance_pc _, ?_⟩
  · rw [advance, readV_setPc, hread, BitVec.and_assoc, BitVec.and_not_self]
    exact BitVec.and_zero
  · exact ((onlyChanges_setDraws s _).trans (onlyChanges_advance_writeV _ x _)).mono (by simp)

end Sys2Proof.Machine
end

section
/-! The index register and the memory instructions (42_index_memory.md R170 to R176): the three writes of
`I`, the bytes that a store leaves, and the registers that a block load leaves. -/

namespace Sys2Proof.Machine

/-! ### The writes of `I` -/

theorem lowNibble_val (b : Byte) : (lowNibble b).val = b.toNat % 16 := by
  simp [lowNibble]

/-- A glyph address is at most 75, so that its product does not wrap (42_index_memory.md R172). -/
theorem glyphAddr_toNat (s : State) (x : RegIdx) :
    (glyphAddr s x).toNat = 5 * ((readV s x).toNat % 16) := by
  simp only [glyphAddr, lowNibble_val, BitVec.toNat_mul, BitVec.toNat_ofNat, BitVec.reduceToNat]
  omega

/-- An instruction that writes `I` and advances. -/
theorem writesIndex_of_setI {i : Instr} {s : State} {a : Word} {r : Nat}
    (he : exec i s = .next (advance (setI s a))) (hr : a.toNat = r) : WritesIndex i s r :=
  ⟨_, he, hr, advance_pc _, (onlyChanges_setI s a).trans (onlyChanges_advance _)⟩

/-! ### The stores -/

theorem memKeptOutside_advance_writeBytes (s : State) (a : Nat) (bs : List Byte) :
    MemKeptOutside a bs.length s (advance (writeBytes s a bs)) :=
  fun _ hb => readMem_writeBytes_outside s a bs hb

theorem onlyChanges_advance_writeBytes (s : State) (a : Nat) (bs : List Byte) :
    OnlyChanges [.mem, .pc] s (advance (writeBytes s a bs)) :=
  (onlyChanges_writeBytes s a bs).trans (onlyChanges_advance _)

theorem exec_ldB_of_le {s : State} {x : RegIdx} (h : dataBase s + 2 ≤ 0xFFF) :
    exec (.ldB x) s = .next (advance (writeBytes s (dataBase s) (bcdDigits (readV s x)))) :=
  guarded_of_le h

/-- The digit `k` as a number, read back at `I + k` after `LD B` (42_index_memory.md R173). -/
theorem readMem_storeDigit (s : State) (x : RegIdx) {k d : Nat} (hd : d < 256)
    (hk : (bcdDigits (readV s x))[k]? = some (BitVec.ofNat 8 d)) :
    (readMem (advance (writeBytes s (dataBase s) (bcdDigits (readV s x))))
      (dataBase s + k)).toNat = d := by
  have hread : readMem (advance (writeBytes s (dataBase s) (bcdDigits (readV s x))))
      (dataBase s + k) = BitVec.ofNat 8 d := readMem_writeBytes_inside s _ _ hk
  rw [hread, BitVec.toNat_ofNat]
  exact Nat.mod_eq_of_lt hd

/-! ### The block load -/

theorem exec_loadRegs_of_le {s : State} {x : RegIdx} (h : dataBase s + x.val ≤ 0xFFF) :
    exec (.loadRegs x) s = .next (advance (setRegs s (loadBlock s x))) :=
  guarded_of_le h

/-- The register `V[j]` after a block load (42_index_memory.md R176). -/
theorem readV_setRegs_loadBlock (s : State) (x j : RegIdx) :
    readV (setRegs s (loadBlock s x)) j =
      if j ≤ x then readMem s (dataBase s + j.val) else readV s j := by
  simp [readV, loadBlock]

/-! ### The obligations -/

/-- Settles O33. -/
theorem loadIndex : Obligations.LoadIndex := fun _ nnn => writesIndex_of_setI rfl (zextAddr_toNat nnn)

/-- Settles O34: the addition wraps at 16 bits, and the glyph address does not. -/
theorem indexArithmetic : Obligations.IndexArithmetic := fun s x =>
  ⟨writesIndex_of_setI rfl (by rw [BitVec.toNat_add, zextByte_toNat]),
    writesIndex_of_setI rfl (glyphAddr_toNat s x)⟩

/-- Settles O35: in range the three bytes stored are the digits, each of which fits into a byte. -/
theorem bcdStoresThreeDigits : Obligations.BcdStoresThreeDigits := by
  intro s x
  have hlt : (readV s x).toNat < 256 := (readV s x).isLt
  refine ⟨fun h => ?_, fun h => raises_of_guarded (len := 3) rfl (by decide) h⟩
  exact ⟨_, exec_ldB_of_le h, readMem_storeDigit s x (k := 0) (by omega) rfl,
    readMem_storeDigit s x (k := 1) (by omega) rfl, readMem_storeDigit s x (k := 2) (by omega) rfl,
    memKeptOutside_advance_writeBytes s _ (bcdDigits (readV s x)), advance_pc _,
    onlyChanges_advance_writeBytes s _ _⟩

/-- Settles O36: the stored block has `x + 1` bytes. -/
theorem blockStore : Obligations.BlockStore := by
  intro s x h
  refine ⟨_, exec_storeRegs_of_le h, fun j hj => readMem_storeBlock s hj, ?_, advance_pc _,
    onlyChanges_advance_writeBytes s _ _⟩
  rw [← length_regBlock s x]
  exact memKeptOutside_advance_writeBytes s _ _

/-- Settles O37: the registers up to `x` are loaded and those above it rewritten as they were. -/
theorem blockLoad : Obligations.BlockLoad := by
  intro s x h
  refine ⟨_, exec_loadRegs_of_le h, fun j hj => ?_, fun j hj => ?_, advance_pc _,
    (onlyChanges_setRegs s _).trans (onlyChanges_advance _)⟩
  · rw [advance, readV_setPc, readV_setRegs_loadBlock, if_pos hj]
  · rw [advance, readV_setPc, readV_setRegs_loadBlock, if_neg (Fin.not_le.mpr hj)]

/-- Settles O39: the store keeps `I`, so that the load reads the bytes that the store wrote. -/
theorem blockRoundTrip : Obligations.BlockRoundTrip := by
  intro s t u x hx hstore hui hbytes
  obtain ⟨t', ht', hstored, _, _, hc⟩ := blockStore s x hx
  obtain rfl : t = t' := Host.Outcome.next.inj (hstore.symm.trans ht')
  have hi : u.i = s.i := hui.trans (hc .i (by decide))
  have hbase : dataBase u = dataBase s := congrArg BitVec.toNat hi
  obtain ⟨w, hw, hloaded, _⟩ := blockLoad u x (by rw [hbase]; exact hx)
  refine ⟨w, hw, fun j hj => ?_⟩
  have hle : dataBase s + j.val ≤ dataBase s + x.val := Nat.add_le_add_left hj _
  rw [hloaded j hj, hbase, hbytes _ (Nat.le_add_right _ _) hle, hstored j hj]

end Sys2Proof.Machine
end

section
/-! The display instructions (43_display.md R190 to R192): the cells and the flag that a draw leaves, and
that a second draw of the same sprite inverts the same cells back. -/

namespace Sys2Proof.Machine

/-! ### The state that a draw leaves -/

/-- The state after an in-range draw of the `n`-row sprite at `I`, at column `cx` and row `cy`
(43_display.md R191). -/
def drawSprite (s : State) (cx cy : Nat) (n : Nibble) : State :=
  advance (writeFlag (setFb s (FrameBuffer.blit s.fb (spriteCells s cx cy n.val)))
    (FrameBuffer.blitHit s.fb (spriteCells s cx cy n.val)))

theorem exec_drw_of_inRange {s : State} {n : Nibble}
    (h : n.val = 0 ∨ dataBase s + n.val - 1 ≤ 0xFFF) (x y : RegIdx) :
    exec (.drw x y n) s = .next (drawSprite s (readV s x).toNat (readV s y).toNat n) :=
  if_pos (dataInRange_iff.mpr h)

section drawSprite
variable {s : State} {cx cy : Nat} {n : Nibble} {p : Cell}

theorem pixel_drawSprite_of_inverts (h : SpriteInverts s cx cy n.val p) :
    pixel (drawSprite s cx cy n) p = !pixel s p := by
  have hblit := pixel_blit_spriteCells s s.fb cx cy n p
  rwa [decide_eq_true (mem_spriteCells.mpr h), Bool.xor_true] at hblit

theorem pixel_drawSprite_of_not_inverts (h : ¬ SpriteInverts s cx cy n.val p) :
    pixel (drawSprite s cx cy n) p = pixel s p := by
  have hblit := pixel_blit_spriteCells s s.fb cx cy n p
  rwa [decide_eq_false (mt mem_spriteCells.mp h), Bool.xor_false] at hblit

theorem readV_vf_drawSprite (s : State) (cx cy : Nat) (n : Nibble) :
    readV (drawSprite s cx cy n) vf =
      if FrameBuffer.blitHit s.fb (spriteCells s cx cy n.val) then 1 else 0 :=
  readV_writeV_same _ vf _

theorem readV_vf_drawSprite_of_collision
    (h : ∃ p, SpriteInverts s cx cy n.val p ∧ pixel s p = true) :
    readV (drawSprite s cx cy n) vf = 1 := by
  rw [readV_vf_drawSprite, if_pos ((blitHit_spriteCells s s.fb cx cy n).mpr h)]

theorem readV_vf_drawSprite_of_no_collision
    (h : ∀ p, SpriteInverts s cx cy n.val p → pixel s p = false) :
    readV (drawSprite s cx cy n) vf = 0 := by
  rw [readV_vf_drawSprite, if_neg]
  intro hhit
  obtain ⟨p, hp, hlit⟩ := (blitHit_spriteCells s s.fb cx cy n).mp hhit
  exact Bool.false_ne_true ((h p hp).symm.trans hlit)

theorem regsKeptBut_drawSprite (s : State) (cx cy : Nat) (n : Nibble) :
    RegsKeptBut [vf] s (drawSprite s cx cy n) :=
  regsKeptBut_writeV (setFb s _) vf _

theorem onlyChanges_drawSprite (s : State) (cx cy : Nat) (n : Nibble) :
    OnlyChanges [.v, .fb, .pc] s (drawSprite s cx cy n) :=
  ((onlyChanges_setFb s _).trans (onlyChanges_advance_writeV _ vf _)).mono (by simp)

end drawSprite

/-- The cells that a sprite inverts depend on `I` and memory alone. -/
theorem spriteInverts_congr {s u : State} (hi : Part.same s u .i) (hm : Part.same s u .mem)
    (cx cy n : Nat) (p : Cell) : SpriteInverts u cx cy n p ↔ SpriteInverts s cx cy n p := by
  have hbase : dataBase u = dataBase s := congrArg BitVec.toNat hi
  have hread : ∀ a, readMem u a = readMem s a := hm
  simp only [SpriteInverts, hbase, hread]

/-! ### The obligations -/

/-- Settles O40. -/
theorem clsClearsEveryPixel : Obligations.ClsClearsEveryPixel := fun s =>
  ⟨_, rfl, FrameBuffer.pixel_clear, advance_pc _,
    (onlyChanges_setFb s _).trans (onlyChanges_advance _)⟩

/-- Settles O41: no cell is walked twice, so that each cell of the sprite is inverted once and tested
with its old value. -/
theorem drwXorsSprite : Obligations.DrwXorsSprite := fun s x y n h =>
  ⟨_, exec_drw_of_inRange h x y, fun _ => pixel_drawSprite_of_inverts,
    fun _ => pixel_drawSprite_of_not_inverts, readV_vf_drawSprite_of_collision,
    readV_vf_drawSprite_of_no_collision, regsKeptBut_drawSprite s _ _ n, advance_pc _,
    onlyChanges_drawSprite s _ _ n⟩

/-- Settles O42: the second draw inverts the cells of the first, which hold the inverse of their value
before it. -/
theorem drwTwiceRestores : Obligations.DrwTwiceRestores := by
  intro s t u x y x' y' n hrange hdraw htu hx hy
  obtain ⟨t', ht', hinv, hkept, _, _, _, _, hst⟩ := drwXorsSprite s x y n hrange
  obtain rfl : t = t' := Host.Outcome.next.inj (hdraw.symm.trans ht')
  have hsu : OnlyChanges [.v, .fb, .pc] s u := (hst.trans htu).mono (by simp)
  have hfb : ∀ p, pixel u p = pixel t p := htu .fb (by decide)
  have hi : Part.same s u .i := hsu .i (by decide)
  have hbase : dataBase u = dataBase s := congrArg BitVec.toNat hi
  obtain ⟨w, hw, hinv', hkept', hhit, hmiss, _⟩ := drwXorsSprite u x' y' n (by rwa [hbase])
  simp only [hx, hy, hfb, spriteInverts_congr hi (hsu .mem (by decide))] at hinv' hkept' hhit hmiss
  refine ⟨w, hw, fun p => ?_, fun hvf => ?_, fun ⟨p, hp, hoff⟩ => ?_⟩
  · by_cases hp : SpriteInverts s (readV s x).toNat (readV s y).toNat n.val p
    · rw [hinv' p hp, hinv p hp, Bool.not_not]
    · rw [hkept' p hp, hkept p hp]
  · by_contra hnone
    have hlit : ∀ p, SpriteInverts s (readV s x).toNat (readV s y).toNat n.val p →
        pixel t p = false := by
      intro p hp
      have hon : pixel s p = true := Bool.of_not_eq_false fun hoff => hnone ⟨p, hp, hoff⟩
      rw [hinv p hp, hon, Bool.not_true]
    exact absurd (hvf.symm.trans (hmiss hlit)) (by decide)
  · exact hhit ⟨p, hp, by rw [hinv p hp, hoff, Bool.not_false]⟩

end Sys2Proof.Machine
end

section
/-! The keypad and timer instructions (44_keypad_timers.md R200 to R206): the key that a register names,
and the two branches of the wait for a key. -/

namespace Sys2Proof.Machine

/-! ### The key tested and the key waited for -/

theorem keyIndex_val (s : State) (x : RegIdx) : (keyIndex s x).val = (readV s x).toNat % 16 :=
  lowNibble_val (readV s x)

theorem exec_ldVxK_of_no_key {s : State} (h : ∀ k, keyDown s k = false) (x : RegIdx) :
    exec (.ldVxK x) s = .next (setMode s .waitKey) := by
  simp only [exec, execLdVxK, leastKey_eq_none.mpr h]

theorem exec_ldVxK_of_least {s : State} {k : Fin 16} (hk : keyDown s k = true)
    (hlt : ∀ j, j < k → keyDown s j = false) (x : RegIdx) :
    exec (.ldVxK x) s = .next (advance (setMode (writeV s x (BitVec.ofNat 8 k.val)) .run)) := by
  simp only [exec, execLdVxK, leastKey_eq_some.mpr ⟨hk, hlt⟩]

/-! ### The obligations -/

/-- Settles O27: both are a `skipIf` on the key of the low nibble, whatever the high nibble holds. -/
theorem keySkips : Obligations.KeySkips := by
  intro s x k hk
  obtain rfl : k = keyIndex s x := Fin.ext (hk.trans (keyIndex_val s x).symm)
  exact ⟨skipsWhen_of_skipIf rfl Iff.rfl, skipsWhen_of_skipIf rfl (Bool.not_eq_true' _).to_iff⟩

/-- Settles O43: the wait is a write of `MODE` alone; a key index fits into a byte, so that `V[x]` holds
it whole. -/
theorem keyWait : Obligations.KeyWait := by
  intro s x
  refine ⟨fun h => ⟨_, exec_ldVxK_of_no_key h x, rfl, onlyChanges_setMode s _⟩, fun k hk hlt => ?_⟩
  refine ⟨_, exec_ldVxK_of_least hk hlt x, ?_, rfl, regsKeptBut_writeV s x _, advance_pc _,
    ((onlyChanges_writeV s x _).trans (onlyChanges_setMode _ _)).trans (onlyChanges_advance _)⟩
  rw [advance, readV_setPc, readV_setMode, readV_writeV_same, BitVec.toNat_ofNat]
  omega

/-- Settles O44: each is a write of its own timer, then `advance`. -/
theorem timerLoads : Obligations.TimerLoads := fun s _ =>
  ⟨⟨_, rfl, rfl, advance_pc _, (onlyChanges_setDt s _).trans (onlyChanges_advance _)⟩,
    ⟨_, rfl, rfl, advance_pc _, (onlyChanges_setSt s _).trans (onlyChanges_advance _)⟩⟩

end Sys2Proof.Machine
end

section
/-! The tick (50_host_and_cycle.md R231 to R235): what each of its branches does, which part of the state
it can change and by which instruction, and the states it leaves as they are. -/

namespace Sys2Proof.Machine

/-! ### The branches of a tick that run no instruction -/

theorem step_of_halted {s : State} (hf : s.fault ≠ .noFault) : step s = .next s := by
  rw [step, if_pos (halted_iff.mpr hf)]

theorem step_of_unknown {s : State} {e : Reject} (hf : s.fault = .noFault) (hpc : s.pc.toNat ≤ 0xFFE)
    (he : decodeWord (fetchWord s) = .error e) : step s = .next (unknownOpcode s) := by
  simp [step, not_halted_iff.mpr hf, fetchable_iff.mpr hpc, he]

/-! ### What a tick changes -/

/-- The word at `PC` decodes to one instruction at most. -/
theorem FetchesInstr.unique {s : State} {i j : Instr} (hi : FetchesInstr s i)
    (hj : FetchesInstr s j) : i = j := Except.ok.inj (hi.2.symm.trans hj.2)

/-- The instructions that can raise a fault, and which. -/
theorem raisedFault_cases {i : Instr} {s : State} {c : FaultCode} (h : raisedFault i s = some c) :
    c = .stackUnderflow ∧ i = .ret ∨ (c = .stackOverflow ∧ ∃ nnn, i = .call nnn) ∨
      c = .dataOutOfRange ∧ ∃ x, i = .ldB x ∨ i = .storeRegs x ∨ i = .loadRegs x ∨
        ∃ y n, i = .drw x y n := by
  cases i with
  | ret =>
    obtain ⟨_, hc⟩ := Option.ite_none_right_eq_some.mp h
    exact .inl ⟨(Option.some.inj hc).symm, rfl⟩
  | call nnn =>
    obtain ⟨_, hc⟩ := Option.ite_none_right_eq_some.mp h
    exact .inr (.inl ⟨(Option.some.inj hc).symm, nnn, rfl⟩)
  | drw x _ _ | ldB x | storeRegs x | loadRegs x =>
    obtain ⟨_, hc⟩ := Option.ite_none_left_eq_some.mp h
    exact .inr (.inr ⟨(Option.some.inj hc).symm, x, by simp⟩)
  | _ => cases h

/-- What a tick can change: nothing, `FAULT` alone, the parts of the no-op of an unknown word, or the
parts that the instruction at `PC` writes. -/
theorem step_changes {s t : State} (h : step s = .next t) :
    t = s ∨
    (s.fault = .noFault ∧ ∃ c, t = setFault s c ∧ (c = .fetchOutOfRange ∧ 0xFFE < s.pc.toNat ∨
      ∃ i, FetchesInstr s i ∧ raisedFault i s = some c)) ∨
    (s.fault = .noFault ∧ s.pc.toNat ≤ 0xFFE ∧ (∃ e, decodeWord (fetchWord s) = .error e) ∧
      OnlyChanges [.pc, .unk] s t) ∨
    ∃ i, s.fault = .noFault ∧ FetchesInstr s i ∧ exec i s = .next t ∧
      OnlyChanges (writtenParts i) s t := by
  obtain ⟨_, rfl⟩ | ⟨hf, hpc, rfl⟩ | ⟨hf, hpc, he, rfl⟩ | ⟨i, hf, hi, hx⟩ := step_cases h
  · exact .inl rfl
  · exact .inr (.inl ⟨hf, _, rfl, .inl ⟨rfl, hpc⟩⟩)
  · exact .inr (.inr (.inl ⟨hf, hpc, he, onlyChanges_unknownOpcode s⟩))
  · obtain ⟨c, hc, rfl⟩ | ⟨_, hc⟩ := exec_cases hx
    · exact .inr (.inl ⟨hf, c, rfl, .inr ⟨i, hi, hc⟩⟩)
    · exact .inr (.inr (.inr ⟨i, hf, hi, hx, hc⟩))

section changed
variable {s t : State} (h : step s = .next t)
include h

/-- A part other than `FAULT`, `PC` and `UNK` changes only by an instruction that writes it. -/
theorem written_of_step_changed {p : Part} (hp : p ∉ [.fault, .pc, .unk])
    (hc : ¬ Part.same s t p) : ∃ i, FetchesInstr s i ∧ p ∈ writtenParts i := by
  obtain ⟨hfault, hno⟩ : p ∉ [.fault] ∧ p ∉ [.pc, .unk] := by simpa using hp
  obtain rfl | ⟨_, c, rfl, _⟩ | ⟨_, _, _, ho⟩ | ⟨i, _, hi, _, ho⟩ := step_changes h
  · exact absurd (OnlyChanges.refl t p List.not_mem_nil) hc
  · exact absurd (onlyChanges_setFault s c p hfault) hc
  · exact absurd (ho p hno) hc
  · exact ⟨i, hi, Decidable.not_not.mp fun hn => hc (ho p hn)⟩

theorem step_keeps_key : Part.same s t .key := by
  by_contra hc
  obtain ⟨i, _, hw⟩ := written_of_step_changed h (by decide) hc
  exact (input_not_mem_writtenParts i).1 hw

theorem fetches_of_step_changed_v (hc : ¬ Part.same s t .v) : ∃ x,
    FetchesInstr s (.ldVxDt x) ∨ FetchesInstr s (.ldVxK x) ∨ FetchesInstr s (.loadRegs x) ∨
    (∃ kk, FetchesInstr s (.ldByte x kk) ∨ FetchesInstr s (.addByte x kk) ∨
      FetchesInstr s (.rnd x kk)) ∨
    ∃ y, FetchesInstr s (.ldReg x y) ∨ FetchesInstr s (.orReg x y) ∨
      FetchesInstr s (.andReg x y) ∨ FetchesInstr s (.xorReg x y) ∨
      FetchesInstr s (.addReg x y) ∨ FetchesInstr s (.subReg x y) ∨
      FetchesInstr s (.subnReg x y) ∨ FetchesInstr s (.shr x y) ∨ FetchesInstr s (.shl x y) ∨
      ∃ n, FetchesInstr s (.drw x y n) := by
  obtain ⟨i, hi, hw⟩ := written_of_step_changed h (by decide) hc
  cases i with
  | ldVxDt x | ldVxK x | loadRegs x => exact ⟨x, by simp only [hi, true_or, or_true]⟩
  | ldByte x kk | addByte x kk | rnd x kk =>
    exact ⟨x, .inr (.inr (.inr (.inl ⟨kk, by simp only [hi, true_or, or_true]⟩)))⟩
  | ldReg x y | orReg x y | andReg x y | xorReg x y | addReg x y | subReg x y | subnReg x y
  | shr x y | shl x y =>
    exact ⟨x, .inr (.inr (.inr (.inr ⟨y, by simp only [hi, true_or, or_true]⟩)))⟩
  | drw x y n =>
    have hn : ∃ n, FetchesInstr s (.drw x y n) := ⟨n, hi⟩
    exact ⟨x, .inr (.inr (.inr (.inr ⟨y, by simp only [hn, or_true]⟩)))⟩
  | _ => simp [writtenParts] at hw

theorem fetches_of_step_changed_i (hc : ¬ Part.same s t .i) :
    (∃ nnn, FetchesInstr s (.ldI nnn)) ∨ ∃ x, FetchesInstr s (.addI x) ∨ FetchesInstr s (.ldF x) := by
  obtain ⟨i, hi, hw⟩ := written_of_step_changed h (by decide) hc
  cases i with
  | ldI nnn => exact .inl ⟨nnn, hi⟩
  | addI x => exact .inr ⟨x, .inl hi⟩
  | ldF x => exact .inr ⟨x, .inr hi⟩
  | _ => simp [writtenParts] at hw

theorem fetches_of_step_changed_sp (hc : ¬ Part.same s t .sp) :
    FetchesInstr s .ret ∨ ∃ nnn, FetchesInstr s (.call nnn) := by
  obtain ⟨i, hi, hw⟩ := written_of_step_changed h (by decide) hc
  cases i with
  | ret => exact .inl hi
  | call nnn => exact .inr ⟨nnn, hi⟩
  | _ => simp [writtenParts] at hw

theorem fetches_of_step_changed_stack (hc : ¬ Part.same s t .stack) :
    ∃ nnn, FetchesInstr s (.call nnn) := by
  obtain ⟨i, hi, hw⟩ := written_of_step_changed h (by decide) hc
  cases i with
  | call nnn => exact ⟨nnn, hi⟩
  | _ => simp [writtenParts] at hw

theorem fetches_of_step_changed_dt (hc : ¬ Part.same s t .dt) :
    ∃ x, FetchesInstr s (.ldDtVx x) := by
  obtain ⟨i, hi, hw⟩ := written_of_step_changed h (by decide) hc
  cases i with
  | ldDtVx x => exact ⟨x, hi⟩
  | _ => simp [writtenParts] at hw

theorem fetches_of_step_changed_st (hc : ¬ Part.same s t .st) :
    ∃ x, FetchesInstr s (.ldStVx x) := by
  obtain ⟨i, hi, hw⟩ := written_of_step_changed h (by decide) hc
  cases i with
  | ldStVx x => exact ⟨x, hi⟩
  | _ => simp [writtenParts] at hw

theorem fetches_of_step_changed_fb (hc : ¬ Part.same s t .fb) :
    FetchesInstr s .cls ∨ ∃ x y n, FetchesInstr s (.drw x y n) := by
  obtain ⟨i, hi, hw⟩ := written_of_step_changed h (by decide) hc
  cases i with
  | cls => exact .inl hi
  | drw x y n => exact .inr ⟨x, y, n, hi⟩
  | _ => simp [writtenParts] at hw

theorem fetches_of_step_changed_mem (hc : ¬ Part.same s t .mem) :
    ∃ x, FetchesInstr s (.ldB x) ∨ FetchesInstr s (.storeRegs x) := by
  obtain ⟨i, hi, hw⟩ := written_of_step_changed h (by decide) hc
  cases i with
  | ldB x => exact ⟨x, .inl hi⟩
  | storeRegs x => exact ⟨x, .inr hi⟩
  | _ => simp [writtenParts] at hw

theorem fetches_of_step_changed_mode (hc : ¬ Part.same s t .mode) :
    ∃ x, FetchesInstr s (.ldVxK x) := by
  obtain ⟨i, hi, hw⟩ := written_of_step_changed h (by decide) hc
  cases i with
  | ldVxK x => exact ⟨x, hi⟩
  | _ => simp [writtenParts] at hw

theorem fetches_of_step_changed_draws (hc : ¬ Part.same s t .draws) :
    ∃ x kk, FetchesInstr s (.rnd x kk) := by
  obtain ⟨i, hi, hw⟩ := written_of_step_changed h (by decide) hc
  cases i with
  | rnd x kk => exact ⟨x, kk, hi⟩
  | _ => simp [writtenParts] at hw

/-- `UNK` changes only at an unknown word: no instruction writes it. -/
theorem unknown_of_step_changed_unk (hc : ¬ Part.same s t .unk) :
    s.pc.toNat ≤ 0xFFE ∧ ∃ e, decodeWord (fetchWord s) = .error e := by
  obtain rfl | ⟨_, c, rfl, _⟩ | ⟨_, hpc, he, _⟩ | ⟨i, _, _, _, ho⟩ := step_changes h
  · exact absurd rfl hc
  · exact absurd rfl hc
  · exact ⟨hpc, he⟩
  · exact absurd (ho .unk (input_not_mem_writtenParts i).2) hc

/-- A core that waits at `LD Vx, K` keeps `PC`; so does one that is halted or that faults. -/
theorem runs_of_step_changed_pc (hc : ¬ Part.same s t .pc) :
    s.fault = .noFault ∧ t.fault = .noFault ∧ s.pc.toNat ≤ 0xFFE ∧
      ∀ x, FetchesInstr s (.ldVxK x) → ∃ k, keyDown s k = true := by
  obtain rfl | ⟨_, c, rfl, _⟩ | ⟨hf, hpc, ⟨e, he⟩, ho⟩ | ⟨i, hf, hi, hx, ho⟩ := step_changes h
  · exact absurd rfl hc
  · exact absurd rfl hc
  · exact ⟨hf, Eq.trans (ho .fault (by decide)) hf, hpc, fun x hk => nomatch he.symm.trans hk.2⟩
  · refine ⟨hf, Eq.trans (ho .fault (fault_not_mem_writtenParts i)) hf, hi.1, fun x hk => ?_⟩
    obtain rfl := hi.unique hk
    by_contra hn
    have hup : ∀ k, keyDown s k = false := by simpa using hn
    obtain rfl := Host.Outcome.next.inj ((exec_ldVxK_of_no_key hup x).symm.trans hx)
    exact hc rfl

theorem raised_of_step_changed_fault (hc : ¬ Part.same s t .fault) :
    s.fault = .noFault ∧ Raised t.fault s t ∧
      (t.fault = .fetchOutOfRange ∧ s.pc.toNat > 0xFFE ∨
       t.fault = .stackUnderflow ∧ FetchesInstr s .ret ∨
       (t.fault = .stackOverflow ∧ ∃ nnn, FetchesInstr s (.call nnn)) ∨
       t.fault = .dataOutOfRange ∧ ∃ x, FetchesInstr s (.ldB x) ∨ FetchesInstr s (.storeRegs x) ∨
         FetchesInstr s (.loadRegs x) ∨ ∃ y n, FetchesInstr s (.drw x y n)) := by
  obtain rfl | ⟨hf, c, rfl, hwhy⟩ | ⟨_, _, _, ho⟩ | ⟨i, _, _, _, ho⟩ := step_changes h
  · exact absurd rfl hc
  · refine ⟨hf, raised_setFault c s, ?_⟩
    obtain hfetch | ⟨i, hi, hr⟩ := hwhy
    · exact .inl hfetch
    · obtain ⟨rfl, rfl⟩ | ⟨rfl, nnn, rfl⟩ | ⟨rfl, x, rfl | rfl | rfl | ⟨y, n, rfl⟩⟩ :=
        raisedFault_cases hr
      · exact .inr (.inl ⟨rfl, hi⟩)
      · exact .inr (.inr (.inl ⟨rfl, nnn, hi⟩))
      · exact .inr (.inr (.inr ⟨rfl, x, .inl hi⟩))
      · exact .inr (.inr (.inr ⟨rfl, x, .inr (.inl hi)⟩))
      · exact .inr (.inr (.inr ⟨rfl, x, .inr (.inr (.inl hi))⟩))
      · exact .inr (.inr (.inr ⟨rfl, x, .inr (.inr (.inr ⟨y, n, hi⟩))⟩))
  · exact absurd (ho .fault (by decide)) hc
  · exact absurd (ho .fault (fault_not_mem_writtenParts i)) hc

end changed

/-- Settles O11, part by part: a changed part is one that the instruction at `PC` writes, or it is one
of `FAULT`, `PC` and `UNK`, which other branches of the tick write too. -/
theorem tickChangesPartsOnlyByTheirInstructions :
    Obligations.TickChangesPartsOnlyByTheirInstructions := fun _ _ h =>
  ⟨step_keeps_key h, fetches_of_step_changed_v h, fetches_of_step_changed_i h,
    runs_of_step_changed_pc h, fetches_of_step_changed_sp h, fetches_of_step_changed_stack h,
    fetches_of_step_changed_dt h, fetches_of_step_changed_st h, fetches_of_step_changed_fb h,
    fetches_of_step_changed_mem h, fetches_of_step_changed_mode h, raised_of_step_changed_fault h,
    unknown_of_step_changed_unk h, fetches_of_step_changed_draws h⟩

/-! ### Fixed points -/

/-- Raising a fault in a core that is not halted gives another state. -/
theorem ne_setFault {s : State} (hf : s.fault = .noFault) {c : FaultCode} (hc : c ≠ .noFault) :
    s ≠ setFault s c := fun e => hc ((congrArg State.fault e).symm.trans hf)

/-- A state in which `PC` has advanced is another state. -/
theorem ne_of_pc_advanced {s t : State} (h : t.pc = s.pc + 2) : t ≠ s := fun e =>
  add_ne_left.mpr (by decide) (h.symm.trans (congrArg State.pc e))

theorem setPc_eq_self {s : State} {w : Word} : setPc s w = s ↔ s.pc = w :=
  ⟨fun e => (congrArg State.pc e).symm, fun e => by rw [← e]; rfl⟩

theorem skipIf_ne (c : Bool) (s : State) : skipIf c s ≠ s := fun e => by
  have hpc := congrArg State.pc e
  rw [skipIf_pc] at hpc
  split at hpc <;> exact add_ne_left.mpr (by decide) hpc

theorem exec_jp_self_iff {s : State} {nnn : Addr12} :
    exec (.jp nnn) s = .next s ↔ s.pc.toNat = nnn.toNat := by
  show Host.Outcome.next (setPc s (zextAddr nnn)) = .next s ↔ _
  rw [Host.Outcome.next.injEq, setPc_eq_self, ← BitVec.toNat_inj, zextAddr_toNat]

theorem exec_jpV0_self_iff {s : State} {nnn : Addr12} :
    exec (.jpV0 nnn) s = .next s ↔ s.pc.toNat = nnn.toNat + (readV s 0).toNat := by
  show Host.Outcome.next (setPc s (zextAddr nnn + zextByte (readV s 0))) = .next s ↔ _
  rw [Host.Outcome.next.injEq, setPc_eq_self, ← BitVec.toNat_inj, zextAddr_add_zextByte_toNat]

theorem exec_ldVxK_self_iff {s : State} {x : RegIdx} :
    exec (.ldVxK x) s = .next s ↔ (∀ k, keyDown s k = false) ∧ s.mode = .waitKey := by
  constructor
  · intro h
    cases hk : leastKey s with
    | none =>
      have hup := leastKey_eq_none.mp hk
      rw [exec_ldVxK_of_no_key hup] at h
      exact ⟨hup, (congrArg State.mode (Host.Outcome.next.inj h)).symm⟩
    | some k =>
      obtain ⟨hdown, hlt⟩ := leastKey_eq_some.mp hk
      rw [exec_ldVxK_of_least hdown hlt] at h
      exact absurd (Host.Outcome.next.inj h) (ne_of_pc_advanced rfl)
  · rintro ⟨hk, hm⟩
    rw [exec_ldVxK_of_no_key hk, ← hm]; rfl

/-- Only the two jumps and the wait for a key can leave a state as it is: every other instruction moves
`PC`, moves `SP`, or faults. -/
theorem exec_self_cases {i : Instr} {s : State} (hf : s.fault = .noFault)
    (h : exec i s = .next s) :
    (∃ nnn, i = .jp nnn) ∨ (∃ nnn, i = .jpV0 nnn) ∨ ∃ x, i = .ldVxK x := by
  cases i with
  | jp nnn => exact .inl ⟨nnn, rfl⟩
  | jpV0 nnn => exact .inr (.inl ⟨nnn, rfl⟩)
  | ldVxK x => exact .inr (.inr ⟨x, rfl⟩)
  | call nnn =>
    obtain e | ⟨_, e⟩ := exec_call_cases h
    · exact absurd e (ne_setFault hf (by decide))
    · have hsp : s.sp = s.sp + 1 := congrArg State.sp e
      bv_omega
  | ret =>
    obtain e | ⟨_, a, _, e⟩ := exec_ret_cases h
    · exact absurd e (ne_setFault hf (by decide))
    · have hsp : s.sp = s.sp - 1 := congrArg State.sp e
      bv_omega
  | drw | ldB | storeRegs | loadRegs =>
    obtain e | ⟨_, e⟩ := guarded_cases h
    · exact absurd e (ne_setFault hf (by decide))
    · exact absurd e.symm (ne_of_pc_advanced rfl)
  | seByte | sneByte | seReg | sneReg | skp | sknp =>
    exact absurd (Host.Outcome.next.inj h) (skipIf_ne _ s)
  | _ => exact absurd (Host.Outcome.next.inj h) (ne_of_pc_advanced rfl)

/-- A core that is not halted stays as it is only by running an instruction that leaves it so. -/
theorem step_self_iff {s : State} (hf : s.fault = .noFault) :
    step s = .next s ↔ ∃ i, FetchesInstr s i ∧ exec i s = .next s := by
  constructor
  · intro h
    obtain ⟨hh, _⟩ | ⟨_, _, e⟩ | ⟨_, _, _, e⟩ | ⟨i, _, hi, hx⟩ := step_cases h
    · exact absurd hf hh
    · exact absurd e (ne_setFault hf (by decide))
    · exact absurd e.symm (ne_of_pc_advanced rfl)
    · exact ⟨i, hi, hx⟩
  · rintro ⟨i, hi, hx⟩
    exact (step_of_fetchesInstr hf hi).trans hx

/-- Settles O12: a halted core stays as it is; else the instruction at `PC` must leave it so, which
three can, each under its own condition. -/
theorem tickFixedPoints : Obligations.TickFixedPoints := by
  intro s
  by_cases hf : s.fault = .noFault
  · rw [step_self_iff hf]
    constructor
    · rintro ⟨i, hi, hx⟩
      obtain ⟨nnn, rfl⟩ | ⟨nnn, rfl⟩ | ⟨x, rfl⟩ := exec_self_cases hf hx
      · exact .inr (.inl ⟨nnn, hi, exec_jp_self_iff.mp hx⟩)
      · exact .inr (.inr (.inl ⟨nnn, hi, exec_jpV0_self_iff.mp hx⟩))
      · exact .inr (.inr (.inr ⟨x, hi, exec_ldVxK_self_iff.mp hx⟩))
    · rintro (hh | ⟨nnn, hi, hpc⟩ | ⟨nnn, hi, hpc⟩ | ⟨x, hi, hk⟩)
      · exact absurd hf hh
      · exact ⟨_, hi, exec_jp_self_iff.mpr hpc⟩
      · exact ⟨_, hi, exec_jpV0_self_iff.mpr hpc⟩
      · exact ⟨_, hi, exec_ldVxK_self_iff.mpr hk⟩
  · exact iff_of_true (step_of_halted hf) (.inl hf)

/-- Settles O7: one clause for each branch of the tick. -/
theorem tickRunsDecodedInstruction : Obligations.TickRunsDecodedInstruction := fun s =>
  ⟨step_of_halted, fun hf hpc => ⟨_, step_of_pc_gt hf hpc, raised_setFault _ s⟩,
    fun _ => step_of_fetchesInstr, fun _ hf hpc he =>
      ⟨_, step_of_unknown hf hpc he, rfl, rfl, onlyChanges_unknownOpcode s⟩⟩

end Sys2Proof.Machine
end

section
/-! The host's operations on keys and timers and its reads (50_host_and_cycle.md R226 to R229,
60_exceptions.md R261). -/

namespace Sys2Proof.Machine

theorem hostStep_setKey_of_gt (font : Config.FontTable) (s : State) {k : Nat} (pressed : Bool)
    (h : 15 < k) :
    hostStep font (.setKey k pressed) s = .refused (.keyIndexOutOfRange k) := by
  rw [hostStep, dif_neg (by omega)]

theorem hostStep_setKey (font : Config.FontTable) (s : State) (k : Fin 16) (pressed : Bool) :
    hostStep font (.setKey k.val pressed) s = .next (setKeyState s k pressed, .done) := by
  rw [hostStep, dif_pos k.isLt]

theorem length_framebufferView (s : State) : (framebufferView s).length = 2048 := by
  rw [framebufferView, List.length_map, List.length_range]

/-- Row-major: the byte `r * 64 + c` of the view is the pixel in row `r` and column `c`. -/
theorem getElem?_framebufferView (s : State) (r : Fin 32) (c : Fin 64) :
    (framebufferView s)[r.val * 64 + c.val]? = some (if pixel s (r, c) = true then 1 else 0) := by
  have hlt : r.val * 64 + c.val < 2048 := by omega
  have hr : Fin.ofNat 32 ((r.val * 64 + c.val) / 64) = r :=
    Fin.ext (by rw [Fin.val_ofNat]; omega)
  have hc : Fin.ofNat 64 (r.val * 64 + c.val) = c := Fin.ext (by rw [Fin.val_ofNat]; omega)
  rw [framebufferView, List.getElem?_map, List.getElem?_range hlt, Option.map_some, hr, hc]

/-- Settles O4: `set_key` writes one key or is refused, the count-down saturates, and the reads answer
the state as it is. -/
theorem hostWritesKeysAndTimers : Obligations.HostWritesKeysAndTimers := by
  intro font s
  refine ⟨fun k pressed => ⟨_, hostStep_setKey font s k pressed, ?_, fun j hj => ?_,
      onlyChanges_setKeyState s k pressed⟩,
    fun k pressed => hostStep_setKey_of_gt font s pressed,
    ⟨_, rfl, countDown_toNat s.dt, countDown_toNat s.st, onlyChanges_decrementTimers s⟩,
    rfl, rfl, ?_⟩
  · rw [keyDown_setKeyState, if_pos rfl]
  · rw [keyDown_setKeyState, if_neg hj]
  · rw [hostStep, soundOn_eq]

/-- Settles O5: the view lists one byte per cell, and the read answers the state as it is. -/
theorem framebufferViewIsRowMajor : Obligations.FramebufferViewIsRowMajor := fun _ s =>
  ⟨_, rfl, length_framebufferView s, getElem?_framebufferView s⟩

end Sys2Proof.Machine
end

section
/-! Faults and the count-down (60_exceptions.md R251 to R262): the condition under which each instruction
faults, that a fault is precise, what a halted core keeps, and runs of count-downs. -/

namespace Sys2Proof.Machine

/-! ### The stack limits -/

/-- `SP` above 16: there is no entry to push to, so `CALL` stops by name (log entry 4). -/
theorem exec_call_of_gt {s : State} (h : 16 < s.sp.toNat) (nnn : Addr12) :
    exec (.call nnn) s = .fault .stackPointerOutOfRange := by
  have hne : s.sp ≠ 16 := by bv_omega
  simp only [exec, execCall, if_neg hne, pushReturn_of_ge (Nat.le_of_lt h)]

/-- `SP` above 16: there is no top entry to pop, so `RET` stops by name (log entry 4). -/
theorem exec_ret_of_gt {s : State} (h : 16 < s.sp.toNat) :
    exec .ret s = .fault .stackPointerOutOfRange := by
  have hne : s.sp ≠ 0 := by bv_omega
  have hnone : stackEntry s (s.sp.toNat - 1) = none := stackEntry_of_ge s (by omega)
  simp only [exec, execRet, if_neg hne, popReturn_of_none hnone]

/-! ### Which instruction raises which fault -/

/-- An instruction that leaves the core halted raised its own fault. -/
theorem raisedFault_of_exec {i : Instr} {s t : State} (hf : s.fault = .noFault)
    (h : exec i s = .next t) (ht : t.fault ≠ .noFault) : raisedFault i s = some t.fault := by
  obtain ⟨c, hc, rfl⟩ | ⟨_, ho⟩ := exec_cases h
  · exact hc
  · exact absurd (Eq.trans (ho .fault (fault_not_mem_writtenParts i)) hf) ht

/-- The check of a data access raises a fault only for a highest address above 0xFFF. -/
theorem dataRange_of_raised {s : State} {len : Nat} {c : FaultCode}
    (h : (if dataInRange s len then none else some .dataOutOfRange) = some c) :
    c = .dataOutOfRange ∧ 1 ≤ len ∧ s.i.toNat + len - 1 > 0xFFF := by
  obtain ⟨hout, hc⟩ := Option.ite_none_left_eq_some.mp h
  rw [dataInRange_iff, dataBase] at hout
  exact ⟨(Option.some.inj hc).symm, by omega, by omega⟩

/-! ### What a halted core keeps -/

/-- On a halted core an operation that answers keeps `FAULT`, but for `new`, `reset` and a `load` that
fits. -/
theorem hostStep_keeps_fault {font : Config.FontTable} {op : HostOp} {s t : State} {r : HostReply}
    (hf : s.fault ≠ .noFault) (h : hostStep font op s = .next (t, r)) :
    t.fault = s.fault ∨ op = .new ∨ op = .reset ∨ ∃ rom, op = .load rom ∧ rom.length ≤ 3584 := by
  cases op with
  | new => exact .inr (.inl rfl)
  | reset => exact .inr (.inr (.inl rfl))
  | load rom =>
    by_cases hfit : imageFits rom = true
    · exact .inr (.inr (.inr ⟨rom, rfl, imageFits_iff.mp hfit⟩))
    · rw [hostStep, if_neg hfit] at h
      cases h; exact .inl rfl
  | tick =>
    rw [hostStep, step_of_halted hf] at h
    cases h; exact .inl rfl
  | setKey k pressed =>
    by_cases hk : k < 16
    · rw [hostStep, dif_pos hk] at h
      cases h; exact .inl rfl
    · rw [hostStep, dif_neg hk] at h
      cases h
  | framebufferView | delayTimer | soundTimer | decrementTimers | readStatus =>
    cases h; exact .inl rfl

/-! ### Runs of count-downs -/

theorem runOps_decrementTimers (font : Config.FontTable) (ops : List HostOp) (s : State) :
    runOps font (.decrementTimers :: ops) s = runOps font ops (decrementTimers s) := rfl

/-! ### The obligations -/

/-- Settles O10: each instruction that can fault has one condition, that of `raisedFault`. -/
theorem faultsComeFromTheirInstructions : Obligations.FaultsComeFromTheirInstructions := by
  intro i s t hf h ht
  have hr := raisedFault_of_exec hf h ht
  cases i with
  | call nnn =>
    obtain ⟨hsp, hc⟩ := Option.ite_none_right_eq_some.mp hr
    exact .inl ⟨(Option.some.inj hc).symm, congrArg BitVec.toNat hsp, nnn, rfl⟩
  | ret =>
    obtain ⟨hsp, hc⟩ := Option.ite_none_right_eq_some.mp hr
    exact .inr (.inl ⟨(Option.some.inj hc).symm, congrArg BitVec.toNat hsp, rfl⟩)
  | drw x y n =>
    obtain ⟨hc, hn, hout⟩ := dataRange_of_raised hr
    exact .inr (.inr ⟨hc, .inl ⟨x, y, n, rfl, hn, hout⟩⟩)
  | ldB x =>
    obtain ⟨hc, _, hout⟩ := dataRange_of_raised hr
    exact .inr (.inr ⟨hc, .inr (.inl ⟨x, rfl, hout⟩)⟩)
  | storeRegs x =>
    obtain ⟨hc, _, hout⟩ := dataRange_of_raised hr
    exact .inr (.inr ⟨hc, .inr (.inr (.inl ⟨x, rfl, hout⟩))⟩)
  | loadRegs x =>
    obtain ⟨hc, _, hout⟩ := dataRange_of_raised hr
    exact .inr (.inr ⟨hc, .inr (.inr (.inr ⟨x, rfl, hout⟩))⟩)
  | _ => cases hr

/-- Settles O9: such a tick changed `FAULT`, which a tick does only by raising a fault. -/
theorem faultingTickChangesOnlyFault : Obligations.FaultingTickChangesOnlyFault := by
  intro s t hf h ht
  have hchanged : ¬ Part.same s t .fault := fun e => ht (Eq.trans e hf)
  obtain ⟨_, hraised, _⟩ := raised_of_step_changed_fault h hchanged
  exact hraised

/-- Settles O8, one host operation at a time; a tick of a halted core is a no-op. -/
theorem onlyResetsLeaveHaltedState : Obligations.OnlyResetsLeaveHaltedState := by
  intro font op s t r hf h
  refine ⟨hostStep_keeps_fault hf h, ?_⟩
  rintro rfl
  rw [hostStep, step_of_halted hf] at h
  cases h; rfl

/-- Settles O6, by induction on the number of count-downs, from every state. -/
theorem timerReachesZeroAfterItsCount : Obligations.TimerReachesZeroAfterItsCount := by
  intro font s k
  induction k generalizing s with
  | zero => exact ⟨s, rfl, rfl, rfl, (OnlyChanges.refl s).mono (by simp)⟩
  | succ k ih =>
    obtain ⟨t, hrun, hdt, hst, hc⟩ := ih (decrementTimers s)
    have hdt1 : (decrementTimers s).dt.toNat = s.dt.toNat - 1 := countDown_toNat s.dt
    have hst1 : (decrementTimers s).st.toNat = s.st.toNat - 1 := countDown_toNat s.st
    refine ⟨t, ?_, by omega, by omega,
      ((onlyChanges_decrementTimers s).trans hc).mono (by simp)⟩
    rw [List.replicate_succ, runOps_decrementTimers, hrun]

/-- Settles O24: `CALL` and `RET` test `SP` before they touch the stack. -/
theorem stackLimitsFault : Obligations.StackLimitsFault := by
  intro s nnn
  refine ⟨fun h => ?_, fun h => ?_, fun h => exec_call_of_gt h nnn, exec_ret_of_gt⟩
  · have hsp : s.sp = 16 := BitVec.eq_of_toNat_eq h
    exact ⟨_, if_pos hsp, raised_setFault _ s⟩
  · have hsp : s.sp = 0 := BitVec.eq_of_toNat_eq h
    exact ⟨_, if_pos hsp, raised_setFault _ s⟩

end Sys2Proof.Machine
end

section
/-! Reset and load (70_reset_and_hazards.md R280 to R283): the initial state for every `FONT`, and what
`load` answers for an image that fits and for one that does not. -/

namespace Sys2Proof.Machine

/-- The initial state fixes no part but memory to the `FONT`, so another memory gives that of another
`FONT`; the counter of draws is no part of it. -/
theorem Initial.of_onlyChanges {font font' : Config.FontTable} {s t : State} (hs : Initial font s)
    (hc : OnlyChanges [.mem, .draws] s t) (glyphs : ∀ a : Fin 80, readMem t a.val = font'[a.val])
    (mem : ∀ a, 80 ≤ a → readMem t a = 0) : Initial font' t where
  v x := (hc .v (by decide) x).trans (hs.v x)
  i := Eq.trans (hc .i (by decide)) hs.i
  pc := Eq.trans (hc .pc (by decide)) hs.pc
  sp := Eq.trans (hc .sp (by decide)) hs.sp
  stack j hj := (hc .stack (by decide) j).trans (hs.stack j hj)
  dt := Eq.trans (hc .dt (by decide)) hs.dt
  st := Eq.trans (hc .st (by decide)) hs.st
  key k := (hc .key (by decide) k).trans (hs.key k)
  fb p := (hc .fb (by decide) p).trans (hs.fb p)
  glyphs := glyphs
  mem a ha _ := mem a ha
  mode := Eq.trans (hc .mode (by decide)) hs.mode
  fault := Eq.trans (hc .fault (by decide)) hs.fault
  unk := Eq.trans (hc .unk (by decide)) hs.unk

theorem onlyChanges_resetState (font : Config.FontTable) (s : State) :
    OnlyChanges [.mem, .draws] State.reset (resetState font s) :=
  (onlyChanges_initialState font).trans (onlyChanges_setDraws _ _)

/-- A reset leaves the initial state of the given `FONT`, whatever the state before. -/
theorem initial_resetState (font : Config.FontTable) (s : State) : Initial font (resetState font s) :=
  initial_reset.of_onlyChanges (onlyChanges_resetState font s)
    (fun a => readMem_initialState_font font a.isLt) (fun _ => readMem_resetState_above font s)

theorem hostStep_load_of_fits (font : Config.FontTable) (s : State) {rom : List Byte}
    (h : rom.length ≤ 3584) :
    hostStep font (.load rom) s = .next (loadState font s rom, .done) := by
  rw [hostStep, if_pos (imageFits_iff.mpr h)]

theorem hostStep_load_of_oversized (font : Config.FontTable) (s : State) {rom : List Byte}
    (h : 3584 < rom.length) : hostStep font (.load rom) s = .next (s, .programTooLarge) := by
  have hno : ¬ imageFits rom = true := fun hfit => by
    have := imageFits_iff.mp hfit
    omega
  rw [hostStep, if_neg hno]

/-- A load copies the image into memory and takes `KEY` over from the state before. -/
theorem keyDown_loadState (font : Config.FontTable) (s : State) (rom : List Byte) (k : Fin 16) :
    keyDown (loadState font s rom) k = keyDown s k :=
  onlyChanges_writeBytes (setKeys (resetState font s) s.key) Config.progBase rom .key (by decide) k

/-! ### The obligations -/

/-- Settles O1: `new` answers the state of `resetState`. -/
theorem newGivesInitialState : Obligations.NewGivesInitialState := fun font s =>
  ⟨_, rfl, initial_resetState font s⟩

/-- Settles O2: `load` differs from `reset` by the keys and the bytes of the image. -/
theorem loadResetsAndCopiesImage : Obligations.LoadResetsAndCopiesImage := by
  intro font s
  refine ⟨resetState font s, rfl, initial_resetState font s, rfl, fun rom hrom => ?_⟩
  exact ⟨loadState font s rom, hostStep_load_of_fits font s hrom,
    fun _ _ => readMem_loadState_inside font s rom, fun _ => readMem_loadState_outside font s rom,
    keyDown_loadState font s rom, (onlyChanges_loadState font s rom).mono (by simp),
    (legal_loadState font s hrom).mem⟩

/-- Settles O3: an image that ends above 0xFFF does not fit. -/
theorem oversizedLoadChangesNothing : Obligations.OversizedLoadChangesNothing := fun font s _ h =>
  hostStep_load_of_oversized font s (by omega)

end Sys2Proof.Machine
end
